-- ==== Sys2Proof/Word.lean ====
section
/-! DEFINITION. The word types of the CHIP-GR8 CORE and nothing else (spec 00_scope.md R5, R6: bit 0 is the
least significant bit, every value is unsigned). -/

namespace Sys2Proof

/-- One byte: a general register (R20), a timer (R29, R30), a memory cell (R50), an immediate `nn` (R71). -/
abbrev Byte := BitVec 8

/-- Sixteen bits: an instruction word (R70), the program counter (R23), a call-stack entry (R32). -/
abbrev Word := BitVec 16

/-- Twelve bits: the address register `I` (R27) and the address field `nnn` (R71). -/
abbrev Addr := BitVec 12

/-- A four-bit field: a register-select field `x` or `y`, a row count `n`, a key number (R71, R190). -/
abbrev Nibble := BitVec 4

end Sys2Proof
end

