-- ==== Sys2Proof/Syntax.lean ====
section
/-! DEFINITION. The instruction set: one constructor per row of spec/opcode_table.json (30_encoding.md R74).
Operand fields are the fields of R71 in their own widths, so every term is an instruction with an encoding. -/

namespace Sys2Proof

/-- The 34 instructions of R74, in the table's order. `x`, `y` select general registers, `nn` is an 8-bit
immediate, `nnn` a 12-bit address, `n` a row count (R71). `shr` and `shl` carry the `y` field their words have,
although nothing they do depends on it (R78). -/
inductive Instr where
  /-- 00E0, clear the framebuffer. -/
  | cls
  /-- 00EE, return from a subroutine. -/
  | ret
  /-- 1NNN, jump. -/
  | jp (nnn : Addr)
  /-- 2NNN, call a subroutine. -/
  | call (nnn : Addr)
  /-- 3XNN, skip if `V[x]` equals `nn`. -/
  | seImm (x : Nibble) (nn : Byte)
  /-- 4XNN, skip if `V[x]` differs from `nn`. -/
  | sneImm (x : Nibble) (nn : Byte)
  /-- 5XY0, skip if `V[x]` equals `V[y]`. -/
  | seReg (x y : Nibble)
  /-- 6XNN, load immediate. -/
  | ldImm (x : Nibble) (nn : Byte)
  /-- 7XNN, add immediate, no flag. -/
  | addImm (x : Nibble) (nn : Byte)
  /-- 8XY0, copy register. -/
  | ldReg (x y : Nibble)
  /-- 8XY1, bitwise or. -/
  | orReg (x y : Nibble)
  /-- 8XY2, bitwise and. -/
  | andReg (x y : Nibble)
  /-- 8XY3, bitwise exclusive or. -/
  | xorReg (x y : Nibble)
  /-- 8XY4, add with carry out. -/
  | addReg (x y : Nibble)
  /-- 8XY5, `V[x]` minus `V[y]`. -/
  | sub (x y : Nibble)
  /-- 8XY6, shift right by one; `y` is ignored. -/
  | shr (x y : Nibble)
  /-- 8XY7, `V[y]` minus `V[x]`. -/
  | subn (x y : Nibble)
  /-- 8XYE, shift left by one; `y` is ignored. -/
  | shl (x y : Nibble)
  /-- 9XY0, skip if `V[x]` differs from `V[y]`. -/
  | sneReg (x y : Nibble)
  /-- ANNN, load the address register. -/
  | ldI (nnn : Addr)
  /-- BNNN, jump to `nnn` plus `V[0]`. -/
  | jpV0 (nnn : Addr)
  /-- CXNN, random byte masked with `nn`. -/
  | rnd (x : Nibble) (nn : Byte)
  /-- DXYN, draw an `n`-row sprite at column `V[x]`, row `V[y]`. -/
  | drw (x y n : Nibble)
  /-- EX9E, skip if the key numbered by `V[x]` is pressed. -/
  | skp (x : Nibble)
  /-- EXA1, skip if the key numbered by `V[x]` is not pressed. -/
  | sknp (x : Nibble)
  /-- FX07, read the delay timer. -/
  | ldVxDt (x : Nibble)
  /-- FX0A, wait for a key and load its code. -/
  | ldVxKey (x : Nibble)
  /-- FX15, set the delay timer. -/
  | ldDtVx (x : Nibble)
  /-- FX18, set the sound timer. -/
  | ldStVx (x : Nibble)
  /-- FX1E, add `V[x]` to the address register. -/
  | addI (x : Nibble)
  /-- FX29, point the address register at a font glyph. -/
  | ldFont (x : Nibble)
  /-- FX33, store the three decimal digits of `V[x]`. -/
  | ldBcd (x : Nibble)
  /-- FX55, store `V[0]` to `V[x]`. -/
  | stRegs (x : Nibble)
  /-- FX65, load `V[0]` to `V[x]`. -/
  | ldRegs (x : Nibble)
  deriving DecidableEq, Repr

end Sys2Proof
end

