-- ==== Sys2Proof/Decode.lean ====
section
/-! DEFINITION. Decoding (30_encoding.md R70 to R79) and, after it, encoding (R82). Decoding is total, has no
state (R79) and rejects by name. -/

namespace Sys2Proof

/-- Why bytes are not an instruction. -/
inductive Reject where
  /-- R75's `Unknown`: the word matches no row of the opcode map. -/
  | unknownOpcode (op : Word)
  /-- Fewer than the two bytes an instruction takes (R70). -/
  | tooShort
  deriving DecidableEq, Repr

/-- The word two bytes make, the one at the lower address more significant: `hi * 256 + lo` (R52, R54). -/
def wordOfBytes (hi lo : Byte) : Word := BitVec.ofNat 16 (hi.toNat * 256 + lo.toNat)

/-- The more significant byte of a word, the one stored at the lower address (R54). -/
def highByte (op : Word) : Byte := op.extractLsb' 8 8

/-- The less significant byte of a word (R54). -/
def lowByte (op : Word) : Byte := op.extractLsb' 0 8

/-! ### The fields of an instruction word (R71) -/

/-- `t`, bits 15 to 12: the family. -/
def fieldT (op : Word) : Nibble := op.extractLsb' 12 4

/-- `x`, bits 11 to 8. -/
def fieldX (op : Word) : Nibble := op.extractLsb' 8 4

/-- `y`, bits 7 to 4. -/
def fieldY (op : Word) : Nibble := op.extractLsb' 4 4

/-- `n`, bits 3 to 0. -/
def fieldN (op : Word) : Nibble := op.extractLsb' 0 4

/-- `nn`, bits 7 to 0. -/
def fieldNN (op : Word) : Byte := op.extractLsb' 0 8

/-- `nnn`, bits 11 to 0. -/
def fieldNNN (op : Word) : Addr := op.extractLsb' 0 12

/-! ### The decoder (R75) -/

/-- Family 0: the two whole words 00E0 and 00EE (R75, R77). -/
def decodeFamily0 (op : Word) : Except Reject Instr :=
  if op = 0x00E0#16 then .ok .cls
  else if op = 0x00EE#16 then .ok .ret
  else .error (.unknownOpcode op)

/-- Families 5 and 9: the low nibble must be 0 (R75, R77). -/
def decodeLowZero (op : Word) (i : Instr) : Except Reject Instr :=
  if fieldN op = 0x0#4 then .ok i else .error (.unknownOpcode op)

/-- Family 8: the low nibble is the sub-opcode (R75). -/
def decodeFamily8 (op : Word) : Except Reject Instr :=
  match fieldN op with
  | 0x0#4 => .ok (.ldReg (fieldX op) (fieldY op))
  | 0x1#4 => .ok (.orReg (fieldX op) (fieldY op))
  | 0x2#4 => .ok (.andReg (fieldX op) (fieldY op))
  | 0x3#4 => .ok (.xorReg (fieldX op) (fieldY op))
  | 0x4#4 => .ok (.addReg (fieldX op) (fieldY op))
  | 0x5#4 => .ok (.sub (fieldX op) (fieldY op))
  | 0x6#4 => .ok (.shr (fieldX op) (fieldY op))
  | 0x7#4 => .ok (.subn (fieldX op) (fieldY op))
  | 0xE#4 => .ok (.shl (fieldX op) (fieldY op))
  | _ => .error (.unknownOpcode op)

/-- Family E: the low byte is the sub-opcode (R75). -/
def decodeFamilyE (op : Word) : Except Reject Instr :=
  match fieldNN op with
  | 0x9E#8 => .ok (.skp (fieldX op))
  | 0xA1#8 => .ok (.sknp (fieldX op))
  | _ => .error (.unknownOpcode op)

/-- Family F: the low byte is the sub-opcode (R75). -/
def decodeFamilyF (op : Word) : Except Reject Instr :=
  match fieldNN op with
  | 0x07#8 => .ok (.ldVxDt (fieldX op))
  | 0x0A#8 => .ok (.ldVxKey (fieldX op))
  | 0x15#8 => .ok (.ldDtVx (fieldX op))
  | 0x18#8 => .ok (.ldStVx (fieldX op))
  | 0x1E#8 => .ok (.addI (fieldX op))
  | 0x29#8 => .ok (.ldFont (fieldX op))
  | 0x33#8 => .ok (.ldBcd (fieldX op))
  | 0x55#8 => .ok (.stRegs (fieldX op))
  | 0x65#8 => .ok (.ldRegs (fieldX op))
  | _ => .error (.unknownOpcode op)

/-- R75. The last arm is family F: a nibble has no seventeenth value. -/
def decode (op : Word) : Except Reject Instr :=
  match fieldT op with
  | 0x0#4 => decodeFamily0 op
  | 0x1#4 => .ok (.jp (fieldNNN op))
  | 0x2#4 => .ok (.call (fieldNNN op))
  | 0x3#4 => .ok (.seImm (fieldX op) (fieldNN op))
  | 0x4#4 => .ok (.sneImm (fieldX op) (fieldNN op))
  | 0x5#4 => decodeLowZero op (.seReg (fieldX op) (fieldY op))
  | 0x6#4 => .ok (.ldImm (fieldX op) (fieldNN op))
  | 0x7#4 => .ok (.addImm (fieldX op) (fieldNN op))
  | 0x8#4 => decodeFamily8 op
  | 0x9#4 => decodeLowZero op (.sneReg (fieldX op) (fieldY op))
  | 0xA#4 => .ok (.ldI (fieldNNN op))
  | 0xB#4 => .ok (.jpV0 (fieldNNN op))
  | 0xC#4 => .ok (.rnd (fieldX op) (fieldNN op))
  | 0xD#4 => .ok (.drw (fieldX op) (fieldY op) (fieldN op))
  | 0xE#4 => decodeFamilyE op
  | _ => decodeFamilyF op

/-- Decoding the bytes at an address: the first byte is the more significant (R54, R70); the rest is handed
back. -/
def decodeBytes : List Byte → Except Reject (Instr × List Byte)
  | hi :: lo :: rest =>
    match decode (wordOfBytes hi lo) with
    | .ok i => .ok (i, rest)
    | .error r => .error r
  | _ => .error .tooShort

/-! ### The encoder (R82) -/

/-- Format `XY` and `XYN`: `match + x*256 + y*16` (with the row count added for DXYN). -/
def wordXY (bits : Nat) (x y : Nibble) : Word := BitVec.ofNat 16 (bits + x.toNat * 256 + y.toNat * 16)

/-- Format `XI`: `match + x*256 + nn`. -/
def wordXI (bits : Nat) (x : Nibble) (nn : Byte) : Word := BitVec.ofNat 16 (bits + x.toNat * 256 + nn.toNat)

/-- Format `A`: `match + nnn`. -/
def wordA (bits : Nat) (nnn : Addr) : Word := BitVec.ofNat 16 (bits + nnn.toNat)

/-- Format `XS`: `match + x*256`. -/
def wordXS (bits : Nat) (x : Nibble) : Word := BitVec.ofNat 16 (bits + x.toNat * 256)

/-- R82: the word of an instruction. -/
def encode : Instr → Word
  | .cls => 0x00E0#16
  | .ret => 0x00EE#16
  | .jp nnn => wordA 0x1000 nnn
  | .call nnn => wordA 0x2000 nnn
  | .seImm x nn => wordXI 0x3000 x nn
  | .sneImm x nn => wordXI 0x4000 x nn
  | .seReg x y => wordXY 0x5000 x y
  | .ldImm x nn => wordXI 0x6000 x nn
  | .addImm x nn => wordXI 0x7000 x nn
  | .ldReg x y => wordXY 0x8000 x y
  | .orReg x y => wordXY 0x8001 x y
  | .andReg x y => wordXY 0x8002 x y
  | .xorReg x y => wordXY 0x8003 x y
  | .addReg x y => wordXY 0x8004 x y
  | .sub x y => wordXY 0x8005 x y
  | .shr x y => wordXY 0x8006 x y
  | .subn x y => wordXY 0x8007 x y
  | .shl x y => wordXY 0x800E x y
  | .sneReg x y => wordXY 0x9000 x y
  | .ldI nnn => wordA 0xA000 nnn
  | .jpV0 nnn => wordA 0xB000 nnn
  | .rnd x nn => wordXI 0xC000 x nn
  | .drw x y n => wordXY (0xD000 + n.toNat) x y
  | .skp x => wordXS 0xE09E x
  | .sknp x => wordXS 0xE0A1 x
  | .ldVxDt x => wordXS 0xF007 x
  | .ldVxKey x => wordXS 0xF00A x
  | .ldDtVx x => wordXS 0xF015 x
  | .ldStVx x => wordXS 0xF018 x
  | .addI x => wordXS 0xF01E x
  | .ldFont x => wordXS 0xF029 x
  | .ldBcd x => wordXS 0xF033 x
  | .stRegs x => wordXS 0xF055 x
  | .ldRegs x => wordXS 0xF065 x

/-- The two bytes of an instruction as they stand in memory, most significant first (R54, R82). -/
def encodeBytes (i : Instr) : List Byte :=
  [highByte (encode i), lowByte (encode i)]

/-! ### The host's numbering of a table row's bits -/

/-- The instruction word a table row's number stands for: instructions are one 16-bit word, so it is bits 15 to
0 of `w`, those from `nbits` up being 0. -/
def tableWord (nbits w : Nat) : Word := BitVec.ofNat 16 (w % 2 ^ nbits)

/-- The instruction the decoder reads from the table word `w` of `nbits` bits, laid out as the hardware stores
it, high byte first. -/
def decodeTableWord (nbits w : Nat) : Option Instr :=
  match decodeBytes [highByte (tableWord nbits w), lowByte (tableWord nbits w)] with
  | .ok (i, _) => some i
  | .error _ => none

end Sys2Proof
end

