-- ==== Sys2Proof/Config.lean ====
section
/-! DEFINITION. What this implementation fixes (00_scope.md R4) and the one value the spec leaves free, the
random byte (42_alu.md R144). The OPEN parameter `FONT` has its default in Machine/Memory.lean and is an argument
of `Machine.load`. -/

namespace Sys2Proof.Config

/-- `FONT_BASE` (R4). -/
abbrev fontBase : Nat := 0x050

/-- `PROG_BASE` (R4), the reset value of `pc` and the load address of the ROM. -/
abbrev progBase : Nat := 0x200

/-- `ROM_MAX` = 4096 - 0x200 (R4, R241). -/
abbrev romMax : Nat := 3584

/-- The draws of the open parameter `RNG`: the `k`-th CXNN to complete since reset receives `rndDraw k`. No body:
the spec places no law on a draw (R144), so nothing can be proved of one, and a statement that mentions
`rndDraw` holds for every sequence of draws. DESIGN CHOICE, assumption 1: that draws are numbered, and that every run
and every instance reads this one sequence, so that two machines with equal `draws` draw the same byte. The spec
gives no equality between runs (R144) and lets instances share nothing (60_exceptions.md R225), so a statement
that compares two runs compares them under the same draws. -/
opaque rndDraw : Nat → Byte

end Sys2Proof.Config
end

