-- ==== Sys2Proof/Machine/State.lean ====
section
/-! DEFINITION. The machine's state (10_state.md), the errors it reports (60_exceptions.md R210), what the model
gives no meaning, and the state after reset (R37, R240). -/

namespace Sys2Proof.Machine

/-- `MODE`, the key-wait status (R31). -/
inductive Mode where
  | normal
  | awaitingKey
  deriving DecidableEq, Repr

/-- The five error kinds, a closed list (R210). Each ends its cycle with the state unchanged (R99, R216). -/
inductive Fault where
  /-- Raised by the fetch when `pc > 4094`, and by DXYN, FX33, FX55, FX65 when an effective address would exceed
  4095 (R211). Safe: the spec says the machine reports it. -/
  | outOfBoundsAccess
  /-- Raised by decode for a word that is no instruction, carrying the word (R212). Safe. -/
  | unknownOpcode (op : Word)
  /-- Raised by 2NNN when the stack holds 16 entries (R213). Safe. -/
  | stackOverflow
  /-- Raised by 00EE when the stack is empty (R213). Safe. -/
  | stackUnderflow
  /-- Raised by `load`, never by a cycle, for a ROM of more than 3584 bytes (R214, R241). Safe. -/
  | romTooLarge
  deriving DecidableEq, Repr

/-- What the model gives no meaning. No instruction of the opcode table ends here: all but the first are breaches
of the host protocol that the spec tells a model to refuse. -/
inductive Refusal where
  /-- Raised by an arm of `exec` whose instruction has no meaning yet; no arm does. Safe. -/
  | notModelled (mnemonic : String)
  /-- Raised by `interact`: an interaction before `load` (R246: the host must load first). Safe. -/
  | beforeLoad
  /-- Raised by `interact`: an interaction after a failed `load` (R241). Safe. -/
  | afterFailedLoad
  /-- Raised by `interact`: a second `load` (R244). Safe. -/
  | secondLoad
  /-- Raised by `interact`: `set_key` with an index above 15 (R40). Safe. -/
  | keyIndexOutOfRange
  deriving DecidableEq, Repr

/-- The framebuffer: 32 rows of 64 one-bit pixels; bit `x` of row `y` is the pixel in column `x` (R33). -/
abbrev Framebuffer := Vector (BitVec 64) 32

/-- The whole state (10_state.md, the tuple at its head), and two fields of the model's own, `edge` and `draws`. -/
structure State where
  /-- `V[0..15]`, the general registers (R20). -/
  v : Vector Byte 16
  /-- `I`, the address register (R27). -/
  i : Addr
  /-- `pc`, the program counter (R23). -/
  pc : Word
  /-- `SP`, the number of live stack entries, 0 to 16 (R28). -/
  sp : Fin 17
  /-- `STACK[0..15]`; entry `k` is live when `k < SP` (R32). -/
  stack : Vector Word 16
  /-- `DT`, the delay timer (R29). -/
  dt : Byte
  /-- `ST`, the sound timer (R30). -/
  st : Byte
  /-- `FB`, the framebuffer (R33). -/
  fb : Framebuffer
  /-- `KEY[0..15]`, the input latch: bit `k` is key `k`, 1 when pressed (R34). -/
  key : BitVec 16
  /-- `MODE`, the key-wait status (R31). -/
  mode : Mode
  /-- `MEM[0..4095]` (R50): the cells that differ from the reset contents, addresses rising (`Mem.wf`). -/
  mem : List Host.Cell
  /-- The model's own: the last completed cycle reported `SoundEdge` (R97, R98). The hardware does not store the
  edge; the model holds it here because a step answers with a state only. No rule reads it. DESIGN CHOICE,
  assumption 2. -/
  edge : Bool
  /-- The model's own: how many random draws have been consumed, which names the next one (R144,
  `Config.rndDraw`). DESIGN CHOICE, assumption 1. -/
  draws : Nat
  deriving DecidableEq, Repr

/-- The state after reset with no ROM loaded (R37, R240): `pc` at 0x200, memory at its reset contents, and every
other component at the value R37 gives it. `edge` and `draws` are the model's own (assumptions 1 and 2). -/
def State.reset : State where
  v := Vector.replicate 16 0
  i := 0
  pc := BitVec.ofNat 16 Config.progBase
  sp := 0
  stack := Vector.replicate 16 0
  dt := 0
  st := 0
  fb := Vector.replicate 32 0
  key := 0
  mode := .normal
  mem := []
  edge := false
  draws := 0

end Sys2Proof.Machine
end

