-- ==== Sys2Proof/Machine/Memory.lean ====
section
/-! DEFINITION. Memory (20_memory.md): 4096 bytes, held as the list of cells that differ from the reset contents.
Every operation here is total on all natural numbers; the range check of `MemRead` and `MemWrite` (R52, R53) is
`inRange`, made by the callers before their first access. -/

namespace Sys2Proof.Machine

/-- The default of the open parameter `FONT`: 16 glyphs of 5 bytes, glyph 0 first, top row first (R57).
PRESUMED (the spec marks the table as general knowledge), assumption 3. -/
def defaultFont : Vector Byte 80 :=
  #v[0xF0, 0x90, 0x90, 0x90, 0xF0,  0x20, 0x60, 0x20, 0x20, 0x70,  0xF0, 0x10, 0xF0, 0x80, 0xF0,
     0xF0, 0x10, 0xF0, 0x10, 0xF0,  0x90, 0x90, 0xF0, 0x10, 0x10,  0xF0, 0x80, 0xF0, 0x10, 0xF0,
     0xF0, 0x80, 0xF0, 0x90, 0xF0,  0xF0, 0x10, 0x20, 0x40, 0x40,  0xF0, 0x90, 0xF0, 0x90, 0xF0,
     0xF0, 0x90, 0xF0, 0x10, 0xF0,  0xF0, 0x90, 0xF0, 0x90, 0x90,  0xE0, 0x90, 0xE0, 0x90, 0xE0,
     0xF0, 0x80, 0x80, 0x80, 0xF0,  0xE0, 0x90, 0x90, 0x90, 0xE0,  0xF0, 0x80, 0xF0, 0x80, 0xF0,
     0xF0, 0x80, 0xF0, 0x80, 0x80]

/-- The contents of memory after reset with no ROM (R57): the font block, and 0 everywhere else. It is what an
address no cell lists reads as. -/
def resetByte (a : Nat) : Byte :=
  if Config.fontBase ≤ a then defaultFont.toList.getD (a - Config.fontBase) 0 else 0

/-- `MEM[a]`. -/
def Mem.read : List Host.Cell → Nat → Byte
  | [], a => resetByte a
  | (b, w) :: rest, a => if b = a then w else Mem.read rest a

/-- The cells of all addresses but `a`. -/
def Mem.without (m : List Host.Cell) (a : Nat) : List Host.Cell :=
  m.filter fun c => c.1 != a

/-- A new cell put in its place by address. -/
def Mem.insert : List Host.Cell → Nat → Byte → List Host.Cell
  | [], a, w => [(a, w)]
  | (b, u) :: rest, a, w => if a < b then (a, w) :: (b, u) :: rest else (b, u) :: Mem.insert rest a w

/-- `MEM[a] <- w`. A byte equal to the reset contents is not listed, so that equal memories are equal lists. -/
def Mem.write (m : List Host.Cell) (a : Nat) (w : Byte) : List Host.Cell :=
  if w = resetByte a then Mem.without m a else Mem.insert (Mem.without m a) a w

/-- The bytes of `ws` written at `a`, `a+1`, ... in that order. -/
def Mem.writeList : List Host.Cell → Nat → List Byte → List Host.Cell
  | m, _, [] => m
  | m, a, w :: ws => Mem.writeList (Mem.write m a w) (a + 1) ws

/-- The cells from `lo` up are in canonical form: addresses rising, below 4096, none at its reset contents. -/
def Mem.wfFrom : Nat → List Host.Cell → Bool
  | _, [] => true
  | lo, (a, w) :: rest =>
    decide (lo ≤ a) && decide (a < 4096) && w != resetByte a && Mem.wfFrom (a + 1) rest

/-- The canonical form of memory. -/
def Mem.wf (m : List Host.Cell) : Bool := Mem.wfFrom 0 m

/-- The `n` bytes at `a`, `a+1`, ... all exist: `a + n - 1 ≤ 4095`, or there are none (R52, R53, R211). -/
def inRange (a n : Nat) : Bool := n == 0 || decide (a + n ≤ 4096)

end Sys2Proof.Machine
end

