-- ==== Sys2Proof/Machine/Ops.lean ====
section
/-! DEFINITION. The named operations every meaning is built from: general registers, memory, the call stack, the
fetch (R91), ending an instruction (R94), raising an error (R99, R216), and the end of the cycle (R96, R97). -/

namespace Sys2Proof.Machine

/-- What a meaning answers. -/
abbrev Result := Host.Outcome State Fault Refusal

/-! ### General registers (R20) -/

/-- `V[r]`. -/
def State.reg (s : State) (r : Nibble) : Byte := s.v[r.toNat]'r.isLt

/-- `V[r] <- b`. -/
def State.setReg (s : State) (r : Nibble) (b : Byte) : State := { s with v := s.v.set r.toNat b r.isLt }

/-! ### Memory (R52, R53) -/

/-- `MEM[a]`. -/
def State.byteAt (s : State) (a : Nat) : Byte := Mem.read s.mem a

/-- Single-byte writes at `a`, `a+1`, ... (R53). -/
def State.storeBytes (s : State) (a : Nat) (ws : List Byte) : State := { s with mem := Mem.writeList s.mem a ws }

/-- The register file after `V[k] <- MEM[a + k]` for each register number `k` of the list, in order (R165). -/
def loadFile (m : List Host.Cell) (a : Nat) : List Nat → Vector Byte 16 → Vector Byte 16
  | [], v => v
  | k :: ks, v => loadFile m a ks (v.set (BitVec.ofNat 4 k).toNat (Mem.read m (a + k)) (BitVec.isLt _))

/-- `V[k] <- MEM[a + k]` for each register number `k` of the list, in order (R165). -/
def State.loadRegsFrom (s : State) (a : Nat) (ks : List Nat) : State := { s with v := loadFile s.mem a ks s.v }

/-! ### The call stack (R32) -/

/-- `STACK[SP] <- w`, then `SP <- SP + 1`, where there is room. -/
def State.push (s : State) (w : Word) (room : s.sp.val < 16) : State :=
  { s with stack := s.stack.set s.sp.val w room, sp := ⟨s.sp.val + 1, Nat.succ_lt_succ room⟩ }

/-- `STACK[SP-1]`, where an entry is live. -/
def State.top (s : State) (live : 0 < s.sp.val) : Word :=
  s.stack[s.sp.val - 1]'(by have := s.sp.isLt; omega)

/-- `SP <- SP - 1`; the popped entry stays in the stack, dead (R32, R110). -/
def State.drop (s : State) : State :=
  { s with sp := ⟨s.sp.val - 1, Nat.lt_of_le_of_lt (Nat.sub_le _ _) s.sp.isLt⟩ }

/-! ### Ending an instruction, and raising an error -/

/-- `pc <- pc'` and `MODE <- Normal`, the last writes of every completed instruction but a waiting FX0A (R94,
R193 (e)). -/
def State.retire (s : State) (pc' : Word) : State := { s with pc := pc', mode := .normal }

/-- `MODE <- AwaitingKey`, `pc` unchanged (R192). -/
def State.awaitKey (s : State) : State := { s with mode := .awaitingKey }

/-- The instruction completes with the program counter at `pc'` (R94). -/
def finish (s : State) (pc' : Word) : Result := .next (s.retire pc')

/-- The default advance: `pc <- pc + 2` (R94). -/
def advance (s : State) : Result := finish s (s.pc + 2)

/-- A skip: `pc + 4` when the condition holds, else `pc + 2` (41_flow.md section 2). -/
def skipIf (cond : Bool) (s : State) : Result := finish s (if cond then s.pc + 4 else s.pc + 2)

/-- FX0A finds no key: a complete cycle that stays where it is (R192, R193 (b)). -/
def await (s : State) : Result := .next s.awaitKey

/-- `raise E`: the one way a cycle takes an error. The spec gives the machine no handler, no saved register and no
vector (R216): every write of the cycle is discarded, and control returns to the host with the error's name, so
the answer carries the name and no state. `cycle` (Machine/HostPorts.lean) keeps the state from before. -/
def raise (e : Fault) : Result := .fault e

/-- The range check an instruction makes on all its `n` addresses from `a` before it writes anything (R53, R211);
`OutOfBoundsAccess` where it fails. -/
def guardRange (a n : Nat) (body : Result) : Result :=
  if inRange a n then body else raise .outOfBoundsAccess

/-! ### The cycle's first and last steps -/

/-- FETCH (R91): the word at `pc`, or `none` when `pc > 4094`. -/
def fetch (s : State) : Option Word :=
  if s.pc.toNat ≤ 4094 then some (wordOfBytes (s.byteAt s.pc.toNat) (s.byteAt (s.pc.toNat + 1))) else none

/-- A timer after one tick: down by one, stopping at 0 (R96). -/
def tickTimer (t : Byte) : Byte := if t = 0 then 0 else t - 1

/-- TICK and REPORT (R96, R97): both timers count down, and the edge is reported when the tick took `ST` from 1
to 0. -/
def tick (s : State) : State := { s with dt := tickTimer s.dt, st := tickTimer s.st, edge := s.st == 1 }

/-- The end of a cycle: the tick runs in every cycle that does not end in an error, and in no other (R96, R99). -/
def endCycle : Result → Result
  | .next s => .next (tick s)
  | .fault e => .fault e
  | .refused r => .refused r

/-- The memory with the instruction word `op` in the two bytes at `a`, high byte first (R54). -/
def State.placeWord (s : State) (a : Nat) (op : Word) : State := s.storeBytes a [highByte op, lowByte op]

end Sys2Proof.Machine
end

