-- ==== Sys2Proof/Machine/Operands.lean ====
section
/-! DEFINITION. The operand forms: how an instruction's fields become values (30_encoding.md R72, R166). A general
register operand is `State.reg`; an immediate `nn` is used as it stands. -/

namespace Sys2Proof.Machine

/-- An address operand loaded into `pc`: zero-extended to 16 bits (R72). -/
def addrToPc (nnn : Addr) : Word := nnn.setWidth 16

/-- A register operand added to a 16-bit address: zero-extended (R113). -/
def byteToWord (b : Byte) : Word := b.setWidth 16

/-- The one data addressing mode: `I + k`, not reduced modulo 4096 (R166). -/
def State.effAddr (s : State) (k : Nat) : Nat := s.i.toNat + k

/-- The key a register names: its low nibble (R190). -/
def keyNumber (vx : Byte) : Nibble := vx.extractLsb' 0 4

/-- `KEY[k]`. -/
def State.keyDown (s : State) (k : Nibble) : Bool := s.key.getLsbD k.toNat

/-- The least `k` with `KEY[k] = 1`, if some key is pressed (R192). -/
def State.leastKey (s : State) : Option Nat := (List.range 16).find? fun k => s.key.getLsbD k

/-- `(I + vx) mod 4096` (R161). -/
def addrPlus (i : Addr) (vx : Byte) : Addr := BitVec.ofNat 12 ((i.toNat + vx.toNat) % 4096)

/-- `0x050 + 5 * vx` (R162). -/
def glyphAddr (vx : Byte) : Addr := BitVec.ofNat 12 (Config.fontBase + 5 * vx.toNat)

/-- The hundreds, tens and ones of a byte (R163). -/
def bcdDigits (vx : Byte) : List Byte :=
  [BitVec.ofNat 8 (vx.toNat / 100), BitVec.ofNat 8 (vx.toNat / 10 % 10), BitVec.ofNat 8 (vx.toNat % 10)]

end Sys2Proof.Machine
end

