-- ==== Sys2Proof/Machine/Flags.lean ====
section
/-! DEFINITION. The flag computations: the only flag is `V[15]`, written as 0 or 1 (10_state.md R26). -/

namespace Sys2Proof.Machine

/-- The number of the flag register (R4). -/
def flagReg : Nibble := 15

/-- A flag value: 1 or 0 in 8 bits (R26). -/
def flagByte (b : Bool) : Byte := if b then 1 else 0

/-- 8XY4's carry: 1 if `vx + vy > 255` (R137). -/
def carryFlag (vx vy : Byte) : Byte := flagByte (decide (vx.toNat + vy.toNat > 255))

/-- The subtract flag: 1 if the minuend is at least the subtrahend, no borrow (R138, R140). -/
def noBorrowFlag (minuend subtrahend : Byte) : Byte := flagByte (decide (minuend.toNat ≥ subtrahend.toNat))

/-- The bit a right shift loses, `vx[0]` (R139). -/
def lowBitFlag (vx : Byte) : Byte := flagByte (vx.getLsbD 0)

/-- The bit a left shift loses, `vx[7]` (R141). -/
def highBitFlag (vx : Byte) : Byte := flagByte (vx.getLsbD 7)

/-- `write2` (R133): the flag first, the result second, so that with `x = 15` the result stays. -/
def State.write2 (s : State) (x : Nibble) (flag result : Byte) : State :=
  (s.setReg flagReg flag).setReg x result

end Sys2Proof.Machine
end

