-- ==== Sys2Proof/Machine/Alu.lean ====
section
/-! DEFINITION. Register and ALU instructions (42_alu.md R130 to R144). Operands are read from the state before the
instruction, whatever is written first (R93). -/

namespace Sys2Proof.Machine

/-- 6XNN (R130). -/
def execLdImm (x : Nibble) (nn : Byte) (s : State) : Result := advance (s.setReg x nn)

/-- 7XNN (R131): no flag. -/
def execAddImm (x : Nibble) (nn : Byte) (s : State) : Result :=
  advance (s.setReg x (BitVec.ofNat 8 (((s.reg x).toNat + nn.toNat) % 256)))

/-- 8XY0 (R132). -/
def execLdReg (x y : Nibble) (s : State) : Result := advance (s.setReg x (s.reg y))

/-- 8XY1 (R134): no flag. -/
def execOrReg (x y : Nibble) (s : State) : Result := advance (s.setReg x (s.reg x ||| s.reg y))

/-- 8XY2 (R135): no flag. -/
def execAndReg (x y : Nibble) (s : State) : Result := advance (s.setReg x (s.reg x &&& s.reg y))

/-- 8XY3 (R136): no flag. -/
def execXorReg (x y : Nibble) (s : State) : Result := advance (s.setReg x (s.reg x ^^^ s.reg y))

/-- `(a + b) mod 256` (R137). -/
def sumByte (a b : Byte) : Byte := BitVec.ofNat 8 ((a.toNat + b.toNat) % 256)

/-- `(a - b) mod 256`, computed as R6 says: 256 is added before the remainder. -/
def differenceByte (a b : Byte) : Byte := BitVec.ofNat 8 ((a.toNat + 256 - b.toNat) % 256)

/-- 8XY4 (R137). -/
def execAddReg (x y : Nibble) (s : State) : Result :=
  advance (s.write2 x (carryFlag (s.reg x) (s.reg y)) (sumByte (s.reg x) (s.reg y)))

/-- 8XY5 (R138). -/
def execSub (x y : Nibble) (s : State) : Result :=
  advance (s.write2 x (noBorrowFlag (s.reg x) (s.reg y)) (differenceByte (s.reg x) (s.reg y)))

/-- 8XY6 (R139): `V[y]` is not read. -/
def execShr (x _y : Nibble) (s : State) : Result :=
  advance (s.write2 x (lowBitFlag (s.reg x)) (BitVec.ofNat 8 ((s.reg x).toNat / 2)))

/-- 8XY7 (R140). -/
def execSubn (x y : Nibble) (s : State) : Result :=
  advance (s.write2 x (noBorrowFlag (s.reg y) (s.reg x)) (differenceByte (s.reg y) (s.reg x)))

/-- 8XYE (R141): `V[y]` is not read. -/
def execShl (x _y : Nibble) (s : State) : Result :=
  advance (s.write2 x (highBitFlag (s.reg x)) (BitVec.ofNat 8 ((s.reg x).toNat * 2 % 256)))

/-- `rnd()` (R144): the next draw, which is consumed. -/
def State.draw (s : State) : Byte := Config.rndDraw s.draws

/-- One draw consumed (R144). -/
def State.consumeDraw (s : State) : State := { s with draws := s.draws + 1 }

/-- CXNN given its draw `r` (R143). -/
def rndWith (r : Byte) (x : Nibble) (nn : Byte) (s : State) : Result := advance (s.consumeDraw.setReg x (r &&& nn))

/-- CXNN (R143, R144). -/
def execRnd (x : Nibble) (nn : Byte) (s : State) : Result := rndWith s.draw x nn s

end Sys2Proof.Machine
end

