-- ==== Sys2Proof/Machine/Display.lean ====
section
/-! DEFINITION. Framebuffer instructions and the collision detector (44_display.md R180 to R183). -/

namespace Sys2Proof.Machine

/-- `FB[y][x]`. -/
def lit (fb : Framebuffer) (y : Fin 32) (x : Fin 64) : Bool := (fb.get y).getLsbD x.val

/-- `FB[y][x] <- FB[y][x] xor 1`. -/
def toggle (fb : Framebuffer) (y : Fin 32) (x : Fin 64) : Framebuffer :=
  fb.set y.val (fb.get y ^^^ (1#64 <<< x.val)) y.isLt

/-- Every pixel 0 (R180). -/
def State.clearScreen (s : State) : State := { s with fb := Vector.replicate 32 0 }

/-- 00E0 (R180). -/
def execCls (s : State) : Result := advance s.clearScreen

/-- A drawing in progress: the framebuffer, and `hit` (R181). -/
structure Drawing where
  fb : Framebuffer
  hit : Bool
  deriving DecidableEq, Repr

/-- One 1 bit of the sprite at row `y`, column `x`: a lit pixel about to go unlit is a collision (R181). -/
def plot (d : Drawing) (y : Fin 32) (x : Fin 64) : Drawing :=
  { fb := toggle d.fb y x, hit := d.hit || lit d.fb y x }

/-- One sprite row `b` at screen row `py`, left edge `vx`: bit 7 is column 0, and each column wraps modulo 64 on
its own (R181). -/
def drawRow (b : Byte) (vx : Nat) (py : Fin 32) (d : Drawing) : Drawing :=
  (List.range 8).foldl (fun d col => if b.getLsbD (7 - col) then plot d py (Fin.ofNat 64 (vx + col)) else d) d

/-- The sprite rows from screen row `vy` down, each wrapping modulo 32 on its own (R181). -/
def drawRows : List Byte → Nat → Nat → Drawing → Drawing
  | [], _, _, d => d
  | b :: bs, vx, vy, d => drawRows bs vx (vy + 1) (drawRow b vx (Fin.ofNat 32 vy) d)

/-- The `n` bytes of the sprite at `I` (R181). -/
def State.sprite (s : State) (n : Nat) : List Byte := (List.range n).map fun row => s.byteAt (s.effAddr row)

/-- The drawing DXYN makes, its coordinates taken from the registers before the flag is written (R93, R181). -/
def State.drawn (s : State) (x y n : Nibble) : Drawing :=
  drawRows (s.sprite n.toNat) (s.reg x).toNat (s.reg y).toNat { fb := s.fb, hit := false }

/-- A drawing put into the state: the framebuffer, and the collision flag in `V[15]` (R181). -/
def State.commitDrawing (s : State) (d : Drawing) : State :=
  { s with fb := d.fb }.setReg flagReg (flagByte d.hit)

/-- DXYN (R181); `n = 0` reads nothing and cannot fail. -/
def execDrw (x y n : Nibble) (s : State) : Result :=
  guardRange (s.effAddr 0) n.toNat (advance (s.commitDrawing (s.drawn x y n)))

end Sys2Proof.Machine
end

