-- ==== Sys2Proof/Machine/Flow.lean ====
section
/-! DEFINITION. Control transfer (41_flow.md R110 to R117). -/

namespace Sys2Proof.Machine

/-- 00EE (R110): the saved address is that of the call itself, so 2 is added. -/
def execRet (s : State) : Result :=
  if live : 0 < s.sp.val then finish s.drop (s.top live + 2) else raise .stackUnderflow

/-- 1NNN (R111). -/
def execJp (nnn : Addr) (s : State) : Result := finish s (addrToPc nnn)

/-- 2NNN (R112): the address pushed is the call's own. -/
def execCall (nnn : Addr) (s : State) : Result :=
  if room : s.sp.val < 16 then finish (s.push s.pc room) (addrToPc nnn) else raise .stackOverflow

/-- BNNN (R113): the 16-bit sum is not reduced modulo 4096. -/
def execJpV0 (nnn : Addr) (s : State) : Result := finish s (addrToPc nnn + byteToWord (s.reg 0))

/-- 3XNN (R114). -/
def execSeImm (x : Nibble) (nn : Byte) (s : State) : Result := skipIf (s.reg x == nn) s

/-- 4XNN (R115). -/
def execSneImm (x : Nibble) (nn : Byte) (s : State) : Result := skipIf (s.reg x != nn) s

/-- 5XY0 (R116). -/
def execSeReg (x y : Nibble) (s : State) : Result := skipIf (s.reg x == s.reg y) s

/-- 9XY0 (R117). -/
def execSneReg (x y : Nibble) (s : State) : Result := skipIf (s.reg x != s.reg y) s

end Sys2Proof.Machine
end

