-- ==== Sys2Proof/Machine/IndexMemory.lean ====
section
/-! DEFINITION. Address register and memory instructions (43_index_memory.md R160 to R166). None changes `I` but
the three that set it. -/

namespace Sys2Proof.Machine

/-- `I <- a`. -/
def State.setI (s : State) (a : Addr) : State := { s with i := a }

/-- ANNN (R160). -/
def execLdI (nnn : Addr) (s : State) : Result := advance (s.setI nnn)

/-- FX1E (R161): the sum wraps modulo 4096 and sets no flag. -/
def execAddI (x : Nibble) (s : State) : Result := advance (s.setI (addrPlus s.i (s.reg x)))

/-- FX29 (R162): the whole byte `V[x]` is used. -/
def execLdFont (x : Nibble) (s : State) : Result := advance (s.setI (glyphAddr (s.reg x)))

/-- FX33 (R163). -/
def execLdBcd (x : Nibble) (s : State) : Result :=
  guardRange (s.effAddr 0) 3 (advance (s.storeBytes (s.effAddr 0) (bcdDigits (s.reg x))))

/-- `V[0]`, ..., `V[x]`, in that order (R164). -/
def State.lowRegs (s : State) (x : Nibble) : List Byte :=
  (List.range (x.toNat + 1)).map fun k => s.reg (BitVec.ofNat 4 k)

/-- FX55 (R164). -/
def execStRegs (x : Nibble) (s : State) : Result :=
  guardRange (s.effAddr 0) (x.toNat + 1) (advance (s.storeBytes (s.effAddr 0) (s.lowRegs x)))

/-- FX65 (R165). -/
def execLdRegs (x : Nibble) (s : State) : Result :=
  guardRange (s.effAddr 0) (x.toNat + 1) (advance (s.loadRegsFrom (s.effAddr 0) (List.range (x.toNat + 1))))

end Sys2Proof.Machine
end

