-- ==== Sys2Proof/Machine/InputTimers.lean ====
section
/-! DEFINITION. Input latch and timer instructions (45_input_timers.md R190 to R196). None writes `KEY`. -/

namespace Sys2Proof.Machine

/-- EX9E (R190). -/
def execSkp (x : Nibble) (s : State) : Result := skipIf (s.keyDown (keyNumber (s.reg x))) s

/-- EXA1 (R191). -/
def execSknp (x : Nibble) (s : State) : Result := skipIf (!s.keyDown (keyNumber (s.reg x))) s

/-- FX0A (R192): level-sensitive, the least pressed key, nothing consumed (R193). -/
def execLdVxKey (x : Nibble) (s : State) : Result :=
  match s.leastKey with
  | some k => advance (s.setReg x (BitVec.ofNat 8 k))
  | none => await s

/-- FX07 (R194): `DT` as the previous cycle's tick left it. -/
def execLdVxDt (x : Nibble) (s : State) : Result := advance (s.setReg x s.dt)

/-- `DT <- b`. -/
def State.setDt (s : State) (b : Byte) : State := { s with dt := b }

/-- `ST <- b`. -/
def State.setSt (s : State) (b : Byte) : State := { s with st := b }

/-- FX15 (R195); this cycle's own tick follows (R96). -/
def execLdDtVx (x : Nibble) (s : State) : Result := advance (s.setDt (s.reg x))

/-- FX18 (R196); this cycle's own tick follows (R96). -/
def execLdStVx (x : Nibble) (s : State) : Result := advance (s.setSt (s.reg x))

end Sys2Proof.Machine
end

