-- ==== Sys2Proof/Machine/Step.lean ====
section
/-! DEFINITION. One cycle (40_cycle.md R90): fetch, decode, execute, tick. -/

namespace Sys2Proof.Machine

/-- R90. The errors are tested in the order of the cycle's steps (R215): the fetch, the decoder, the instruction. -/
def step (s : State) : Host.Outcome State Fault Refusal :=
  match fetch s with
  | none => raise .outOfBoundsAccess
  | some op =>
    match decode op with
    | .error _ => raise (.unknownOpcode op)
    | .ok i => endCycle (exec i s)

/-- Where `withFetchWord` places the word: at `pc`, or at the reset entry point when no word can be fetched at
`pc` (R91). -/
def State.fetchPlace (s : State) : Word := if s.pc.toNat ≤ 4094 then s.pc else BitVec.ofNat 16 Config.progBase

/-- `s` with the table word `w` of `nbits` bits stored where `step` fetches next. It stands for the load of a
program (assumption 4). -/
def State.withFetchWord (s : State) (nbits w : Nat) : State :=
  { s with pc := s.fetchPlace }.placeWord s.fetchPlace.toNat (tableWord nbits w)

end Sys2Proof.Machine
end

