-- ==== Sys2Proof/Machine/HostPorts.lean ====
section
/-! DEFINITION. The host's side of the machine (10_state.md R38 to R43, 70_reset_and_hazards.md R240 to R249): `load`,
the outcome of a `step` request, the key latch, the read-only outputs, the life of one machine, and the end of a run
(R255). -/

namespace Sys2Proof.Machine

/-- `load` (R240, R241): the font, then the ROM at 0x200, over zeroed memory, every other component at its reset
value. `font` is the open parameter `FONT` (R57). -/
def load (font : Vector Byte 80) (rom : List Byte) : Except Fault State :=
  if rom.length > Config.romMax then .error .romTooLarge
  else .ok { State.reset with
    mem := Mem.writeList (Mem.writeList [] Config.fontBase font.toList) Config.progBase rom }

/-- What a cycle reports (R98). -/
inductive CycleOutcome where
  | normal
  | soundEdge
  | error (kind : Fault)
  deriving DecidableEq, Repr

/-- One `step` request as the host sees it: the state after the cycle and the outcome (R98). In an error cycle the
state is the one before it, unchanged (R99, R216), and the host may ask again (R217). -/
def cycle (s : State) : Except Refusal (State × CycleOutcome) :=
  match step s with
  | .next t => .ok (t, if t.edge then .soundEdge else .normal)
  | .fault e => .ok (s, .error e)
  | .refused r => .error r

/-- `set_key(k, pressed)` (R40), for a key number in range. -/
def State.setKey (s : State) (k : Nibble) (pressed : Bool) : State :=
  { s with key := if pressed then s.key ||| (1#16 <<< k.toNat) else s.key &&& ~~~(1#16 <<< k.toNat) }

/-- `set_all_keys(state)` (R40). -/
def State.setAllKeys (s : State) (keys : BitVec 16) : State := { s with key := keys }

/-- The life of a machine (R244, R245): not loaded, loaded without success (no machine state exists, R241), or
running. -/
inductive Session where
  | unloaded
  | loadFailed
  | running (s : State)
  deriving DecidableEq, Repr

/-- What the host may do (R246). -/
inductive Action where
  | load (rom : List Byte)
  | step
  | setKey (k : Nat) (pressed : Bool)
  | setAllKeys (keys : BitVec 16)
  | readFb
  | readDt
  | readSt
  | readAwaitingKey
  deriving DecidableEq, Repr

/-- What the CORE returns (R246). -/
inductive Answer where
  | done
  | loadError (kind : Fault)
  | outcome (o : CycleOutcome)
  | pixels (fb : Framebuffer)
  | byte (b : Byte)
  | level (b : Bool)
  deriving DecidableEq, Repr

/-- An interaction with a running machine (R246). -/
def interactRunning (s : State) : Action → Except Refusal (Session × Answer)
  | .load _ => .error .secondLoad
  | .step =>
    match cycle s with
    | .ok (t, o) => .ok (.running t, .outcome o)
    | .error r => .error r
  | .setKey k pressed =>
    if k < 16 then .ok (.running (s.setKey (BitVec.ofNat 4 k) pressed), .done) else .error .keyIndexOutOfRange
  | .setAllKeys keys => .ok (.running (s.setAllKeys keys), .done)
  | .readFb => .ok (.running s, .pixels s.fb)
  | .readDt => .ok (.running s, .byte s.dt)
  | .readSt => .ok (.running s, .byte s.st)
  | .readAwaitingKey => .ok (.running s, .level (s.mode == .awaitingKey))

/-- The first interaction of a machine's life must be `load` (R246). -/
def interactUnloaded (font : Vector Byte 80) : Action → Except Refusal (Session × Answer)
  | .load rom =>
    match load font rom with
    | .ok s => .ok (.running s, .done)
    | .error e => .ok (.loadFailed, .loadError e)
  | _ => .error .beforeLoad

/-- One interaction of the host (R245, R246); `font` is the open parameter `FONT`. -/
def interact (font : Vector Byte 80) (σ : Session) (a : Action) : Except Refusal (Session × Answer) :=
  match σ with
  | .unloaded => interactUnloaded font a
  | .loadFailed => .error .afterFailedLoad
  | .running s => interactRunning s a

/-! ### Runs and their end -/

/-- A run: the host's interactions one after another, with the answers in order (R245, R248). The list is the host's
choice; where it ends the host stops. -/
def run (font : Vector Byte 80) : Session → List Action → Except Refusal (Session × List Answer)
  | σ, [] => .ok (σ, [])
  | σ, a :: rest =>
    match interact font σ a with
    | .error r => .error r
    | .ok (τ, ans) =>
      match run font τ rest with
      | .error r => .error r
      | .ok (υ, more) => .ok (υ, ans :: more)

/-- The next instruction is a jump to its own address: 1NNN with `nnn = pc` (R255 (c)). The machine does not recognise
it; it executes it like any jump. -/
def State.atSelfJump (s : State) : Bool :=
  match (fetch s).map decode with
  | some (.ok (.jp nnn)) => addrToPc nnn == s.pc
  | _ => false

/-- The three ways a run ends (R255, decision D28). -/
inductive RunEnd where
  /-- (a) The host requests no further cycle. -/
  | hostStops
  /-- (b) A cycle reports an error, and every further cycle repeats it. -/
  | error (kind : Fault)
  /-- (c) The program has reached a jump to its own address. -/
  | selfJump
  deriving DecidableEq, Repr

/-- A run that has come to this state may be taken to have ended there in this way (R255). The host may stop after
any cycle, so its way is open in every state, beside the others. -/
def EndsRun : RunEnd → State → Prop
  | .hostStops, _ => True
  | .error e, s => step s = .fault e
  | .selfJump, s => s.atSelfJump = true

end Sys2Proof.Machine
end

