-- ==== Sys2Proof/Safety.lean ====
section
/-! DEFINITION. The terms the claims use: the invariant of the machine, what a frame says, and which states a program
and the host cannot tell apart. -/

namespace Sys2Proof.Safety

open Sys2Proof.Machine

/-- The invariant of every reachable state: memory is canonical, `pc` is at most 0x10FE (R23), and every live stack
entry is the address of an instruction that was fetched, at most 4094 (R32, R91). -/
abbrev CoreInv (s : State) : Prop :=
  Mem.wf s.mem = true ∧ s.pc.toNat ≤ 0x10FE ∧
    ∀ k : Fin 16, k.val < s.sp.val → (s.stack.get k).toNat ≤ 4094

/-- The invariant of a machine's life: a running machine's state meets `CoreInv`. -/
def SessionInv : Session → Prop
  | .unloaded => True
  | .loadFailed => True
  | .running s => CoreInv s

/-- Every general register outside `written` is unchanged. -/
def RegsKept (written : List Nibble) (s t : State) : Prop := ∀ r, r ∉ written → t.reg r = s.reg r

/-- Every byte of memory is unchanged. -/
def MemKept (s t : State) : Prop := ∀ a, t.byteAt a = s.byteAt a

/-- Every byte of memory outside the `n` bytes from `a` is unchanged. -/
def MemKeptOutside (a n : Nat) (s t : State) : Prop :=
  ∀ b, b < a ∨ a + n ≤ b → t.byteAt b = s.byteAt b

/-- Every pixel is unchanged. -/
def ScreenKept (s t : State) : Prop := ∀ y x, lit t.fb y x = lit s.fb y x

/-- The call stack and its depth are unchanged. -/
def StackKept (s t : State) : Prop := t.sp = s.sp ∧ ∀ k, t.stack.get k = s.stack.get k

/-- Both timers are unchanged (before the tick that ends the cycle). -/
def TimersKept (s t : State) : Prop := t.dt = s.dt ∧ t.st = s.st

/-- The input latch and the model's own two fields are unchanged. -/
def LatchKept (s t : State) : Prop := t.key = s.key ∧ t.edge = s.edge ∧ t.draws = s.draws

/-- The word in the two bytes at `pc`, the first more significant (R54). -/
def wordAtPc (s : State) : Word :=
  BitVec.ofNat 16 ((s.byteAt s.pc.toNat).toNat * 256 + (s.byteAt (s.pc.toNat + 1)).toNat)

/-- Pixel (`py`, `px`) lies under a 1 bit of the `n`-row sprite at `I` drawn at column `vx`, row `vy`: bit `7 - col`
of sprite row `row` falls on column `(vx + col) mod 64` and row `(vy + row) mod 32` (R181, R182). -/
def Covered (s : State) (vx vy n : Nat) (py : Fin 32) (px : Fin 64) : Prop :=
  ∃ row col, row < n ∧ col < 8 ∧ (s.byteAt (s.i.toNat + row)).getLsbD (7 - col) = true ∧
    py.val = (vy + row) % 32 ∧ px.val = (vx + col) % 64

/-- The two states differ at most in dead stack entries (R32). -/
def SameButDead (s t : State) : Prop :=
  { t with stack := s.stack } = s ∧ ∀ k : Fin 16, k.val < s.sp.val → t.stack.get k = s.stack.get k

end Sys2Proof.Safety
end

