-- ==== Sys2Proof/Certificates/Slice0/Obligations.lean ====
section
/-! DEFINITION. The statements for the provers. Words of instructions are written out as R82 sums, so that a statement about
an instruction also says which words are that instruction. A statement named DERIVED rests, in part or whole, on a
decision the spec marks as its own (92_eei_decisions.md, named with its number), on an inference it marks as derived,
or on this model's choice (named with its assumption); the others follow rules that carry no such mark. -/

open Sys2Proof Sys2Proof.Machine Sys2Proof.Safety

/-! ### Encoding -/

/-- DERIVED (30_encoding.md R82 is an inference of the spec): decoding an instruction's word gives it back, with
every operand at every value. -/
def Obligations.DecodeUndoesEncode : Prop := ∀ i : Instr, decode (encode i) = .ok i

/-- DERIVED (R82): a word that decodes has one meaning, and encoding that meaning gives the word. -/
def Obligations.EncodeUndoesDecode : Prop :=
  ∀ (op : Word) (i : Instr), decode op = .ok i → encode i = op

/-- DERIVED (R74 and R75 are two forms of one map): the decoder accepts exactly the words some row of the opcode
map selects, and an accepted word is selected by its own instruction's row and by no other. -/
def Obligations.DecoderAcceptsTheOpcodeMap : Prop :=
  ∀ op : Word, (wellFormedWord op = true ↔ ∃ i, decode op = .ok i) ∧
    ∀ i, decode op = .ok i → ∀ r ∈ opcodeMap, (r.selects op = true ↔ r = i.row)

/-- DERIVED (95_test_vectors.md section 2.1): words of each family, all sixteen top nibbles, read from the patterns,
decode to the instructions they stand for, and words between them are unknown. -/
def Obligations.PatternWordsDecode : Prop :=
  decode 0x00E0 = .ok .cls ∧ decode 0x00EE = .ok .ret ∧ decode 0x1ABC = .ok (.jp 0xABC) ∧
  decode 0x2ABC = .ok (.call 0xABC) ∧ decode 0x3C7F = .ok (.seImm 12 0x7F) ∧
  decode 0x4C7F = .ok (.sneImm 12 0x7F) ∧ decode 0x5AB0 = .ok (.seReg 10 11) ∧
  decode 0x6A2F = .ok (.ldImm 10 0x2F) ∧ decode 0x700A = .ok (.addImm 0 0x0A) ∧
  decode 0x9AB0 = .ok (.sneReg 10 11) ∧ decode 0xB123 = .ok (.jpV0 0x123) ∧
  decode 0xC1FF = .ok (.rnd 1 0xFF) ∧ decode 0x8AB7 = .ok (.subn 10 11) ∧
  decode 0x8ABE = .ok (.shl 10 11) ∧ decode 0xD12F = .ok (.drw 1 2 15) ∧ decode 0xE1A1 = .ok (.sknp 1) ∧
  decode 0xF11E = .ok (.addI 1) ∧ decode 0xA123 = .ok (.ldI 0x123) ∧
  decode 0x0000 = .error (.unknownOpcode 0x0000) ∧ decode 0x5AB1 = .error (.unknownOpcode 0x5AB1) ∧
  decode 0x8AB8 = .error (.unknownOpcode 0x8AB8) ∧ decode 0xF130 = .error (.unknownOpcode 0xF130)

/-! ### The cycle -/

/-- DERIVED (R90, its steps 1 to 5): when the bytes at `pc` (at most 4094) decode to an instruction, the cycle runs that instruction's meaning,
and a completed instruction is followed by the tick. -/
def Obligations.StepRunsDecodedInstruction : Prop :=
  ∀ (s : State) (i : Instr), s.pc.toNat ≤ 4094 → decode (wordAtPc s) = .ok i →
    step s = match exec i s with
      | .next t => .next (tick t)
      | .fault e => .fault e
      | .refused r => .refused r

/-- DERIVED (R96 and R97 rest on decisions D12, D13, D25): after the instruction's writes both timers count down
by one, stopping at 0, the outcome is `SoundEdge` exactly when `ST` was 1, and the tick changes nothing else. -/
def Obligations.CycleEndsWithTick : Prop :=
  ∀ (s : State) (i : Instr) (t : State), s.pc.toNat ≤ 4094 → decode (wordAtPc s) = .ok i → exec i s = .next t →
    ∃ u, step s = .next u ∧ u.dt.toNat = t.dt.toNat - 1 ∧ u.st.toNat = t.st.toNat - 1 ∧
      cycle s = .ok (u, if t.st.toNat = 1 then .soundEdge else .normal) ∧
      { u with dt := t.dt, st := t.st, edge := t.edge } = t

/-- DERIVED (R91 rests on decision D7; R99 on D6): a fetch above 4094 reports `OutOfBoundsAccess`, and the host
finds the state unchanged. -/
def Obligations.FetchPastTheEndIsReported : Prop :=
  ∀ s : State, 4094 < s.pc.toNat →
    step s = .fault .outOfBoundsAccess ∧ cycle s = .ok (s, .error .outOfBoundsAccess)

/-- R76: executing a word that no row of the opcode map matches raises `UnknownOpcode` with the word; the program
counter does not advance and no other state changes. -/
def Obligations.IllegalWordIsReported : Prop :=
  ∀ s : State, s.pc.toNat ≤ 4094 → wellFormedWord (wordAtPc s) = false →
    step s = .fault (.unknownOpcode (wordAtPc s)) ∧
      cycle s = .ok (s, .error (.unknownOpcode (wordAtPc s)))

/-- DERIVED (R217 and R255 rest on decisions D23 and D28): a run that has ended stays ended. An error leaves the state
as it was, and another cycle raises the same error, whatever the host wrote to the key latch and whatever draw comes
next; at a jump to its own address a cycle completes, ticks the timers and changes nothing else, and the machine is
at that jump again. (The tick also sets the model's own `edge`, assumption 2, and `MODE` is `Normal` after it.) -/
def Obligations.EndedRunsStayEnded : Prop :=
  (∀ (s : State) (e : Fault) (keys : BitVec 16) (d : Nat), EndsRun (.error e) s →
    cycle s = .ok (s, .error e) ∧ EndsRun (.error e) { s with key := keys, draws := d }) ∧
  (∀ s : State, EndsRun .selfJump s →
    ∃ u, step s = .next u ∧ EndsRun .selfJump u ∧ u.dt.toNat = s.dt.toNat - 1 ∧ u.st.toNat = s.st.toNat - 1 ∧
      u.mode = .normal ∧ { u with dt := s.dt, st := s.st, mode := s.mode, edge := s.edge } = s)

/-- DERIVED (R210, R211, R213, R215; decisions D7, D8, D32): which instruction raises which error, and exactly when. -/
def Obligations.WhichInstructionsFault : Prop :=
  ∀ (i : Instr) (s : State) (e : Fault), exec i s = .fault e ↔
    (i = .ret ∧ s.sp.val = 0 ∧ e = .stackUnderflow) ∨
    (∃ nnn, i = .call nnn ∧ s.sp.val = 16 ∧ e = .stackOverflow) ∨
    (∃ x y n, i = .drw x y n ∧ 0 < n.toNat ∧ s.i.toNat + n.toNat - 1 > 4095 ∧ e = .outOfBoundsAccess) ∨
    (∃ x, i = .ldBcd x ∧ s.i.toNat + 2 > 4095 ∧ e = .outOfBoundsAccess) ∨
    (∃ x, i = .stRegs x ∧ s.i.toNat + x.toNat > 4095 ∧ e = .outOfBoundsAccess) ∨
    (∃ x, i = .ldRegs x ∧ s.i.toNat + x.toNat > 4095 ∧ e = .outOfBoundsAccess)

/-- DERIVED (R98, R210): every cycle ends in a next state or in one of the four cycle-time errors; the machine refuses
nothing. -/
def Obligations.EveryCycleHasAnOutcome : Prop :=
  ∀ s : State, (∃ t, step s = .next t) ∨ (∃ e, step s = .fault e ∧ e ≠ .romTooLarge)

/-! ### Invariants, reset and load -/

/-- DERIVED (R23, R28, R32, R50): every cycle keeps memory canonical, `pc` at most 0x10FE, and every live stack
entry the address of a fetched instruction. -/
def Obligations.EveryCycleKeepsInv : Prop := ∀ s t : State, CoreInv s → step s = .next t → CoreInv t

/-- DERIVED (R37): the reset state meets the invariant. -/
def Obligations.ResetMeetsInv : Prop := CoreInv State.reset

/-- DERIVED (R245, R246, R248): whatever the host does, for every font and every ROM, a running machine's state meets the
invariant, after one interaction and after any run of them. -/
def Obligations.EveryInteractionKeepsInv : Prop :=
  ∀ (font : Vector Byte 80) (σ σ' : Session), SessionInv σ →
    (∀ a ans, interact font σ a = .ok (σ', ans) → SessionInv σ') ∧
    (∀ actions answers, run font σ actions = .ok (σ', answers) → SessionInv σ')

/-- DERIVED (R37, R57; registers, `I`, `SP`, stack, timers, screen, keys and `MODE` by decision D16, assumption 5; the
font bytes are the default table, decision D17, assumption 3): what reset leaves in each component of the spec's
state tuple. -/
def Obligations.ResetValues : Prop :=
  State.reset.pc = 0x200 ∧ (∀ a, a < 0x050 ∨ 0x0A0 ≤ a → State.reset.byteAt a = 0) ∧
  (∀ k : Fin 80, State.reset.byteAt (0x050 + k.val) = defaultFont.get k) ∧
  (∀ r, State.reset.reg r = 0) ∧ State.reset.i = 0 ∧ State.reset.sp.val = 0 ∧
  (∀ k, State.reset.stack.get k = 0) ∧
  State.reset.dt = 0 ∧ State.reset.st = 0 ∧ (∀ y x, lit State.reset.fb y x = false) ∧
  (∀ k, State.reset.keyDown k = false) ∧ State.reset.mode = .normal

/-- DERIVED (R57, R240; decisions D16, D17, D19): for every font, a ROM that fits is loaded: the font at 0x050,
the ROM at 0x200, zero elsewhere, everything but memory as at reset. -/
def Obligations.LoadLaysOutMemory : Prop :=
  ∀ (font : Vector Byte 80) (rom : List Byte), rom.length ≤ 3584 →
    ∃ s, load font rom = .ok s ∧ { s with mem := State.reset.mem } = State.reset ∧
      ∀ a, s.byteAt a =
        if 0x050 ≤ a ∧ a < 0x0A0 then font.toList.getD (a - 0x050) 0
        else if 0x200 ≤ a ∧ a < 0x200 + rom.length then rom.getD (a - 0x200) 0
        else 0

/-- DERIVED (R241; that not only a `step` but every interaction after a failed `load` is refused rests on R244, decision
D19 and assumption 9): a ROM of more than 3584 bytes fails `RomTooLarge`, and nothing may then be asked of the
machine; a ROM of at most 3584 bytes is accepted, its last byte at `0x200 + L - 1`. -/
def Obligations.OversizedRomIsRefused : Prop :=
  ∀ (font : Vector Byte 80) (rom : List Byte),
    (rom.length > 3584 →
      interact font .unloaded (.load rom) = .ok (.loadFailed, .loadError .romTooLarge) ∧
        ∀ a, interact font .loadFailed a = .error .afterFailedLoad) ∧
    (rom.length ≤ 3584 →
      ∃ s, interact font .unloaded (.load rom) = .ok (.running s, .done) ∧
        ∀ k, k < rom.length → s.byteAt (0x200 + k) = rom.getD k 0)

/-- DERIVED (R39 to R43, R244, R246; decisions D19, D21; that a second `load` is refused also assumption 9): on a
running machine `step` runs one cycle and answers its outcome, `set_key` writes one key, `set_all_keys` all sixteen, the
outputs show `FB`, `DT`, `ST` and the wait without changing anything, a key number above 15 and a
second `load` are refused. -/
def Obligations.HostPortsOfARunningMachine : Prop :=
  ∀ (font : Vector Byte 80) (s : State),
    (∃ t o, cycle s = .ok (t, o) ∧ interact font (.running s) .step = .ok (.running t, .outcome o)) ∧
    (∀ k pressed, k < 16 → ∃ t, interact font (.running s) (.setKey k pressed) = .ok (.running t, .done) ∧
      { t with key := s.key } = s ∧
      ∀ j : Nibble, t.keyDown j = if j.toNat = k then pressed else s.keyDown j) ∧
    (∀ k pressed, 16 ≤ k → interact font (.running s) (.setKey k pressed) = .error .keyIndexOutOfRange) ∧
    (∀ keys, interact font (.running s) (.setAllKeys keys) = .ok (.running { s with key := keys }, .done)) ∧
    interact font (.running s) .readFb = .ok (.running s, .pixels s.fb) ∧
    interact font (.running s) .readDt = .ok (.running s, .byte s.dt) ∧
    interact font (.running s) .readSt = .ok (.running s, .byte s.st) ∧
    interact font (.running s) .readAwaitingKey =
      .ok (.running s, .level (decide (s.mode = .awaitingKey))) ∧
    (∀ rom, interact font (.running s) (.load rom) = .error .secondLoad)

/-! ### Rules of the whole machine -/

/-- DERIVED (R21, R24, R31, R51, R95, R197; decision D3; the draw count is the model's own, assumption 1): which
instructions can write each part of the state. Every completed instruction sets `pc`, by default to `pc + 2`, and
`MODE`, by default to `Normal`: the clauses name those that can set another value. -/
def Obligations.ClosedEffects : Prop :=
  ∀ (i : Instr) (s t : State), exec i s = .next t →
    (∀ r, t.reg r ≠ s.reg r →
      (∃ nn, i = .ldImm r nn ∨ i = .addImm r nn ∨ i = .rnd r nn) ∨
      (∃ y, i = .ldReg r y ∨ i = .orReg r y ∨ i = .andReg r y ∨ i = .xorReg r y ∨ i = .addReg r y ∨
        i = .sub r y ∨ i = .shr r y ∨ i = .subn r y ∨ i = .shl r y) ∨
      i = .ldVxDt r ∨ i = .ldVxKey r ∨ (∃ x, i = .ldRegs x ∧ r.toNat ≤ x.toNat) ∨
      (r = 15 ∧ ((∃ x y, i = .addReg x y ∨ i = .sub x y ∨ i = .shr x y ∨ i = .subn x y ∨ i = .shl x y) ∨
        ∃ x y n, i = .drw x y n))) ∧
    (t.pc ≠ s.pc + 2 →
      (i = .ret ∨ ∃ nnn, i = .jp nnn ∨ i = .call nnn ∨ i = .jpV0 nnn) ∨
      (t.pc = s.pc + 4 ∧ ((∃ x nn, i = .seImm x nn ∨ i = .sneImm x nn) ∨
        (∃ x y, i = .seReg x y ∨ i = .sneReg x y) ∨ ∃ x, i = .skp x ∨ i = .sknp x)) ∨
      (t.pc = s.pc ∧ ∃ x, i = .ldVxKey x)) ∧
    (t.mode ≠ .normal → ∃ x, i = .ldVxKey x) ∧
    (t.fb ≠ s.fb → i = .cls ∨ ∃ x y n, i = .drw x y n) ∧
    (t.mem ≠ s.mem → ∃ x, i = .ldBcd x ∨ i = .stRegs x) ∧
    (t.i ≠ s.i → (∃ nnn, i = .ldI nnn) ∨ ∃ x, i = .addI x ∨ i = .ldFont x) ∧
    (t.stack ≠ s.stack → ∃ nnn, i = .call nnn) ∧
    (t.sp ≠ s.sp → i = .ret ∨ ∃ nnn, i = .call nnn) ∧
    (t.dt ≠ s.dt → ∃ x, i = .ldDtVx x) ∧
    (t.st ≠ s.st → ∃ x, i = .ldStVx x) ∧
    (t.draws ≠ s.draws → ∃ x nn, i = .rnd x nn) ∧
    t.key = s.key

/-- DERIVED (R26; decision D3): an instruction that changes `V[15]` is one of the six that write the flag, or one whose
destination is register 15. -/
def Obligations.WhoWritesTheFlag : Prop :=
  ∀ (i : Instr) (s t : State), exec i s = .next t → t.reg 15 ≠ s.reg 15 →
    (∃ x y, i = .addReg x y ∨ i = .sub x y ∨ i = .shr x y ∨ i = .subn x y ∨ i = .shl x y) ∨
    (∃ x y n, i = .drw x y n) ∨
    (∃ nn, i = .ldImm 15 nn ∨ i = .addImm 15 nn ∨ i = .rnd 15 nn) ∨
    (∃ y, i = .ldReg 15 y ∨ i = .orReg 15 y ∨ i = .andReg 15 y ∨ i = .xorReg 15 y) ∨
    i = .ldVxDt 15 ∨ i = .ldVxKey 15 ∨ i = .ldRegs 15

/-- DERIVED (R31, R193; decisions D12, D33): a completed instruction leaves `MODE` at `AwaitingKey` exactly when it is
an FX0A that found no key, and at `Normal` otherwise. -/
def Obligations.WhenTheMachineAwaitsAKey : Prop :=
  ∀ (i : Instr) (s t : State), exec i s = .next t →
    (t.mode = .awaitingKey ↔ (∃ x, i = .ldVxKey x) ∧ ∀ k, s.keyDown k = false)

/-- DERIVED (R31, decision D33; R97; assumption 2): no cycle depends on `MODE` or on the edge last reported, the draw being
the same (assumption 1). -/
def Obligations.ModeAndEdgeAreNotRead : Prop :=
  ∀ (s : State) (m : Mode) (e : Bool), step { s with mode := m, edge := e } = step s

/-- DERIVED (R32, decision D27): dead stack entries cannot be observed: two states that differ in them alone take the
same cycle, the draw being the same (assumption 1), to states that again differ in them alone. -/
def Obligations.DeadStackEntriesAreNotRead : Prop :=
  ∀ s t : State, SameButDead s t →
    (∀ s', step s = .next s' → ∃ t', step t = .next t' ∧ SameButDead s' t') ∧
    (∀ e, step s = .fault e → step t = .fault e)

/-- DERIVED (R30, R197): no instruction reads the sound timer: with another `ST`, and the same draw (assumption 1),
an instruction does the same to everything else. -/
def Obligations.SoundTimerIsNotRead : Prop :=
  ∀ (i : Instr) (s t : State) (b : Byte), exec i s = .next t →
    ∃ u, exec i { s with st := b } = .next u ∧ { u with st := t.st } = t

/-! ### Control transfer: what each instruction does -/

/-- R110: 00EE goes to the instruction after the call whose address was saved last, where a saved address of 4094 makes
the next fetch fail; on an empty stack it fails and nothing changes. -/
def Obligations.ReturnGoesPastTheCall : Prop :=
  ∀ s : State, decode 0x00EE = .ok .ret ∧
    (∀ k : Fin 16, k.val + 1 = s.sp.val →
      ∃ t, exec .ret s = .next t ∧ t.pc = s.stack.get k + 2 ∧ t.sp.val = k.val ∧ t.stack = s.stack ∧
        RegsKept [] s t ∧ ((s.stack.get k).toNat = 4094 → step t = .fault .outOfBoundsAccess)) ∧
    (s.sp.val = 0 → exec .ret s = .fault .stackUnderflow ∧
      (s.pc.toNat ≤ 4094 → wordAtPc s = 0x00EE → cycle s = .ok (s, .error .stackUnderflow)))

/-- R111: 1NNN sets the program counter to `nnn`; `nnn` = 0xFFF is accepted, and the next fetch fails;
a jump to its own address stays there, the same word is fetched again, and each repetition ticks the timers. -/
def Obligations.JumpSetsPc : Prop :=
  ∀ (s : State) (nnn : Addr), decode (BitVec.ofNat 16 (0x1000 + nnn.toNat)) = .ok (.jp nnn) ∧
    ∃ t, exec (.jp nnn) s = .next t ∧ t.pc.toNat = nnn.toNat ∧ RegsKept [] s t ∧
      (nnn.toNat = 0xFFF → step t = .fault .outOfBoundsAccess) ∧
      (s.pc.toNat ≤ 4094 → (wordAtPc s).toNat = 0x1000 + nnn.toNat → s.pc.toNat = nnn.toNat →
        ∃ u, step s = .next u ∧ u.pc = s.pc ∧ wordAtPc u = wordAtPc s ∧ u.dt.toNat = s.dt.toNat - 1 ∧ u.st.toNat = s.st.toNat - 1)

/-- R112: 2NNN saves its own address and goes to `nnn`; when 16 addresses are saved it fails and nothing changes. -/
def Obligations.CallSavesItsAddress : Prop :=
  ∀ (s : State) (nnn : Addr), decode (BitVec.ofNat 16 (0x2000 + nnn.toNat)) = .ok (.call nnn) ∧
    (∀ k : Fin 16, k.val = s.sp.val →
      ∃ t, exec (.call nnn) s = .next t ∧ t.stack.get k = s.pc ∧ t.sp.val = k.val + 1 ∧
        t.pc.toNat = nnn.toNat ∧ RegsKept [] s t) ∧
    (s.sp.val = 16 → exec (.call nnn) s = .fault .stackOverflow ∧
      (s.pc.toNat ≤ 4094 → (wordAtPc s).toNat = 0x2000 + nnn.toNat →
        cycle s = .ok (s, .error .stackOverflow)))

/-- DERIVED (R113 rests on decisions D1, D7): BNNN goes to `nnn + V[0]`, not reduced modulo 4096. -/
def Obligations.IndexedJumpDoesNotWrap : Prop :=
  ∀ (s : State) (nnn : Addr), decode (BitVec.ofNat 16 (0xB000 + nnn.toNat)) = .ok (.jpV0 nnn) ∧
    ∃ t, exec (.jpV0 nnn) s = .next t ∧ t.pc.toNat = nnn.toNat + (s.reg 0).toNat

/-- R114, R115, R116, R117: the four compare-and-skip instructions advance by 4 when their condition holds and by 2 when
it does not, and write no general register; a 3XNN at 4092 that skips makes the next fetch fail. -/
def Obligations.SkipsCompareAndAdvance : Prop :=
  ∀ (s : State) (x y : Nibble) (nn : Byte),
    (decode (BitVec.ofNat 16 (0x3000 + x.toNat * 256 + nn.toNat)) = .ok (.seImm x nn) ∧
      ∃ t, exec (.seImm x nn) s = .next t ∧ RegsKept [] s t ∧
        (t.pc = if (s.reg x).toNat = nn.toNat then s.pc + 4 else s.pc + 2) ∧
        (s.pc.toNat = 4092 → s.reg x = nn → step t = .fault .outOfBoundsAccess)) ∧
    (decode (BitVec.ofNat 16 (0x4000 + x.toNat * 256 + nn.toNat)) = .ok (.sneImm x nn) ∧
      ∃ t, exec (.sneImm x nn) s = .next t ∧ RegsKept [] s t ∧
        t.pc = if (s.reg x).toNat ≠ nn.toNat then s.pc + 4 else s.pc + 2) ∧
    (decode (BitVec.ofNat 16 (0x5000 + x.toNat * 256 + y.toNat * 16)) = .ok (.seReg x y) ∧
      ∃ t, exec (.seReg x y) s = .next t ∧ RegsKept [] s t ∧
        t.pc = if (s.reg x).toNat = (s.reg y).toNat then s.pc + 4 else s.pc + 2) ∧
    (decode (BitVec.ofNat 16 (0x9000 + x.toNat * 256 + y.toNat * 16)) = .ok (.sneReg x y) ∧
      ∃ t, exec (.sneReg x y) s = .next t ∧ RegsKept [] s t ∧
        t.pc = if (s.reg x).toNat ≠ (s.reg y).toNat then s.pc + 4 else s.pc + 2)

/-- DERIVED (R118's law is an inference): a call followed by a return arrives at the instruction after the call, at the
depth before it. -/
def Obligations.CallThenReturn : Prop :=
  ∀ (s t : State) (nnn : Addr), exec (.call nnn) s = .next t →
    ∃ u, exec .ret t = .next u ∧ u.pc = s.pc + 2 ∧ u.sp = s.sp

/-! ### Register and ALU instructions: what each does -/

/-- R130, R131, R132: load immediate, add immediate modulo 256 with no flag, copy register; no other register is
written. -/
def Obligations.LoadsAndAddImmediate : Prop :=
  ∀ (s : State) (x y : Nibble) (nn : Byte),
    (decode (BitVec.ofNat 16 (0x6000 + x.toNat * 256 + nn.toNat)) = .ok (.ldImm x nn) ∧
      ∃ t, exec (.ldImm x nn) s = .next t ∧ t.reg x = nn ∧ RegsKept [x] s t ∧ t.pc = s.pc + 2) ∧
    (decode (BitVec.ofNat 16 (0x7000 + x.toNat * 256 + nn.toNat)) = .ok (.addImm x nn) ∧
      ∃ t, exec (.addImm x nn) s = .next t ∧ (t.reg x).toNat = ((s.reg x).toNat + nn.toNat) % 256 ∧
        RegsKept [x] s t ∧ t.pc = s.pc + 2) ∧
    (decode (BitVec.ofNat 16 (0x8000 + x.toNat * 256 + y.toNat * 16)) = .ok (.ldReg x y) ∧
      ∃ t, exec (.ldReg x y) s = .next t ∧ t.reg x = s.reg y ∧ RegsKept [x] s t ∧ t.pc = s.pc + 2)

/-- DERIVED (R134 to R136, bit by bit; that `V[15]` is left alone rests on decision D3): or, and, exclusive or. -/
def Obligations.BitwiseOperations : Prop :=
  ∀ (s : State) (x y : Nibble),
    (decode (BitVec.ofNat 16 (0x8001 + x.toNat * 256 + y.toNat * 16)) = .ok (.orReg x y) ∧
      ∃ t, exec (.orReg x y) s = .next t ∧ RegsKept [x] s t ∧ t.pc = s.pc + 2 ∧
        ∀ k, (t.reg x).getLsbD k = ((s.reg x).getLsbD k || (s.reg y).getLsbD k)) ∧
    (decode (BitVec.ofNat 16 (0x8002 + x.toNat * 256 + y.toNat * 16)) = .ok (.andReg x y) ∧
      ∃ t, exec (.andReg x y) s = .next t ∧ RegsKept [x] s t ∧ t.pc = s.pc + 2 ∧
        ∀ k, (t.reg x).getLsbD k = ((s.reg x).getLsbD k && (s.reg y).getLsbD k)) ∧
    (decode (BitVec.ofNat 16 (0x8003 + x.toNat * 256 + y.toNat * 16)) = .ok (.xorReg x y) ∧
      ∃ t, exec (.xorReg x y) s = .next t ∧ RegsKept [x] s t ∧ t.pc = s.pc + 2 ∧
        ∀ k, (t.reg x).getLsbD k = ((s.reg x).getLsbD k ^^ (s.reg y).getLsbD k))

/-- DERIVED (R137; with `x = 15` the result stays, R133, decisions D4, D5): the result is the sum modulo 256, the
flag is 1 when the sum exceeds 255, both from the registers before the instruction. -/
def Obligations.AddWithCarry : Prop :=
  ∀ (s : State) (x y : Nibble),
    decode (BitVec.ofNat 16 (0x8004 + x.toNat * 256 + y.toNat * 16)) = .ok (.addReg x y) ∧
    ∃ t, exec (.addReg x y) s = .next t ∧ RegsKept [x, 15] s t ∧ t.pc = s.pc + 2 ∧
      (t.reg x).toNat = ((s.reg x).toNat + (s.reg y).toNat) % 256 ∧
      (x ≠ 15 → t.reg 15 = if (s.reg x).toNat + (s.reg y).toNat > 255 then 1 else 0)

/-- DERIVED (R138, R140; with `x = 15` the result stays, R133, decisions D4, D5): the difference modulo 256, and a flag of
1 for no borrow, equality included. -/
def Obligations.SubtractWithBorrow : Prop :=
  ∀ (s : State) (x y : Nibble),
    (decode (BitVec.ofNat 16 (0x8005 + x.toNat * 256 + y.toNat * 16)) = .ok (.sub x y) ∧
      ∃ t, exec (.sub x y) s = .next t ∧ RegsKept [x, 15] s t ∧ t.pc = s.pc + 2 ∧
        t.reg x = s.reg x - s.reg y ∧
        (x ≠ 15 → t.reg 15 = if (s.reg x).toNat ≥ (s.reg y).toNat then 1 else 0)) ∧
    (decode (BitVec.ofNat 16 (0x8007 + x.toNat * 256 + y.toNat * 16)) = .ok (.subn x y) ∧
      ∃ t, exec (.subn x y) s = .next t ∧ RegsKept [x, 15] s t ∧ t.pc = s.pc + 2 ∧
        t.reg x = s.reg y - s.reg x ∧
        (x ≠ 15 → t.reg 15 = if (s.reg y).toNat ≥ (s.reg x).toNat then 1 else 0))

/-- DERIVED (R139, R141; with `x = 15` the result stays, R133, decisions D4, D5; `V[y]` plays no part, D3): a logical shift by one,
the lost bit in the flag. -/
def Obligations.ShiftsByOne : Prop :=
  ∀ (s : State) (x y : Nibble),
    (decode (BitVec.ofNat 16 (0x8006 + x.toNat * 256 + y.toNat * 16)) = .ok (.shr x y) ∧
      ∃ t, exec (.shr x y) s = .next t ∧ RegsKept [x, 15] s t ∧ t.pc = s.pc + 2 ∧
        (t.reg x).toNat = (s.reg x).toNat / 2 ∧ (x ≠ 15 → (t.reg 15).toNat = (s.reg x).toNat % 2)) ∧
    (decode (BitVec.ofNat 16 (0x800E + x.toNat * 256 + y.toNat * 16)) = .ok (.shl x y) ∧
      ∃ t, exec (.shl x y) s = .next t ∧ RegsKept [x, 15] s t ∧ t.pc = s.pc + 2 ∧
        (t.reg x).toNat = (s.reg x).toNat * 2 % 256 ∧ (x ≠ 15 → (t.reg 15).toNat = (s.reg x).toNat / 128))

/-- DERIVED (R143, R144, decision D18; that the draws are numbered is this model's choice, assumption 1): CXNN takes
the next draw, whatever it is, and masks it; no bit outside `nn` is set. -/
def Obligations.RandomIsMasked : Prop :=
  ∀ (s : State) (x : Nibble) (nn : Byte),
    decode (BitVec.ofNat 16 (0xC000 + x.toNat * 256 + nn.toNat)) = .ok (.rnd x nn) ∧
    ∃ t, exec (.rnd x nn) s = .next t ∧ RegsKept [x] s t ∧ t.pc = s.pc + 2 ∧ t.draws = s.draws + 1 ∧
      t.reg x = Config.rndDraw s.draws &&& nn ∧ ∀ k, nn.getLsbD k = false → (t.reg x).getLsbD k = false

/-! ### Address register and memory: what each instruction does -/

/-- R160, R162: ANNN sets `I` to `nnn`; FX29 sets it to `0x050 + 5 * V[x]`, the whole byte. -/
def Obligations.SettingTheAddressRegister : Prop :=
  ∀ (s : State) (x : Nibble) (nnn : Addr),
    (decode (BitVec.ofNat 16 (0xA000 + nnn.toNat)) = .ok (.ldI nnn) ∧
      ∃ t, exec (.ldI nnn) s = .next t ∧ t.i = nnn ∧ RegsKept [] s t ∧ t.pc = s.pc + 2) ∧
    (decode (BitVec.ofNat 16 (0xF029 + x.toNat * 256)) = .ok (.ldFont x) ∧
      ∃ t, exec (.ldFont x) s = .next t ∧ t.i.toNat = 0x050 + 5 * (s.reg x).toNat ∧ RegsKept [] s t ∧
        t.pc = s.pc + 2)

/-- DERIVED (R161 rests on decisions D2, D3): FX1E wraps modulo 4096 and records no overflow. -/
def Obligations.AddToTheAddressRegister : Prop :=
  ∀ (s : State) (x : Nibble),
    decode (BitVec.ofNat 16 (0xF01E + x.toNat * 256)) = .ok (.addI x) ∧
    ∃ t, exec (.addI x) s = .next t ∧ t.i.toNat = (s.i.toNat + (s.reg x).toNat) % 4096 ∧ RegsKept [] s t ∧
      t.pc = s.pc + 2

/-- DERIVED (R163 rests on decisions D6, D7): FX33 leaves the hundreds, tens and ones of `V[x]` at `I`, `I+1`, `I+2`,
or fails when one of them lies above 4095. -/
def Obligations.BcdDigitsAreStored : Prop :=
  ∀ (s : State) (x : Nibble),
    decode (BitVec.ofNat 16 (0xF033 + x.toNat * 256)) = .ok (.ldBcd x) ∧
    (s.i.toNat + 2 ≤ 4095 →
      ∃ t, exec (.ldBcd x) s = .next t ∧ t.pc = s.pc + 2 ∧
        (s.reg x).toNat = 100 * (t.byteAt s.i.toNat).toNat + 10 * (t.byteAt (s.i.toNat + 1)).toNat +
          (t.byteAt (s.i.toNat + 2)).toNat ∧
        (t.byteAt (s.i.toNat + 1)).toNat ≤ 9 ∧ (t.byteAt (s.i.toNat + 2)).toNat ≤ 9) ∧
    (s.i.toNat + 2 > 4095 → exec (.ldBcd x) s = .fault .outOfBoundsAccess)

/-- DERIVED (R164, R165 rest on decisions D3, D6, D7): FX55 leaves `V[0]` to `V[x]` at `I` to `I+x`; FX65 loads them
from there; either fails when `I + x` exceeds 4095. -/
def Obligations.BlockStoreAndLoad : Prop :=
  ∀ (s : State) (x : Nibble),
    decode (BitVec.ofNat 16 (0xF055 + x.toNat * 256)) = .ok (.stRegs x) ∧
    decode (BitVec.ofNat 16 (0xF065 + x.toNat * 256)) = .ok (.ldRegs x) ∧
    (s.i.toNat + x.toNat ≤ 4095 →
      (∃ t, exec (.stRegs x) s = .next t ∧ t.pc = s.pc + 2 ∧ t.i = s.i ∧
        ∀ r : Nibble, r.toNat ≤ x.toNat → t.byteAt (s.i.toNat + r.toNat) = s.reg r) ∧
      (∃ t, exec (.ldRegs x) s = .next t ∧ t.pc = s.pc + 2 ∧ t.i = s.i ∧
        ∀ r : Nibble, t.reg r = if r.toNat ≤ x.toNat then s.byteAt (s.i.toNat + r.toNat) else s.reg r)) ∧
    (s.i.toNat + x.toNat > 4095 →
      exec (.stRegs x) s = .fault .outOfBoundsAccess ∧ exec (.ldRegs x) s = .fault .outOfBoundsAccess)

/-- DERIVED (R164, R165): a block load after a block store brings back the registers stored, whatever the registers held
in between. -/
def Obligations.BlockLoadUndoesBlockStore : Prop :=
  ∀ (s t u : State) (x : Nibble) (v : Vector Byte 16), exec (.stRegs x) s = .next t →
    exec (.ldRegs x) { t with v := v } = .next u →
    ∀ r : Nibble, r.toNat ≤ x.toNat → u.reg r = s.reg r

/-- DERIVED (R55, R61 are inferences): the first two bytes a block store writes are fetched as the instruction
`V[0] * 256 + V[1]` by the next cycle that starts there, with no fence between. -/
def Obligations.StoredBytesAreFetched : Prop :=
  ∀ (s t : State) (x : Nibble) (i : Instr), 1 ≤ x.toNat → exec (.stRegs x) s = .next t →
    decode (BitVec.ofNat 16 ((s.reg 0).toNat * 256 + (s.reg 1).toNat)) = .ok i →
    step { t with pc := BitVec.ofNat 16 s.i.toNat } = endCycle (exec i { t with pc := BitVec.ofNat 16 s.i.toNat })

/-! ### The framebuffer -/

/-- R180: 00E0 leaves every pixel 0 and writes no register. -/
def Obligations.ClearLeavesNoPixelLit : Prop :=
  ∀ s : State, decode 0x00E0 = .ok .cls ∧
    ∃ t, exec .cls s = .next t ∧ (∀ y x, lit t.fb y x = false) ∧ RegsKept [] s t ∧ t.pc = s.pc + 2

/-- DERIVED (R181, R182; decisions D4, D6, D7, D14, D15): DXYN flips exactly the pixels under the sprite's 1 bits, each
wrapping on its own axis; `V[15]` is 1 when one of them was lit and 0 otherwise; it fails, with `n > 0`, when a
row would be read above 4095. -/
def Obligations.DrawFlipsThePixelsUnderTheSprite : Prop :=
  ∀ (s : State) (x y n : Nibble),
    decode (BitVec.ofNat 16 (0xD000 + x.toNat * 256 + y.toNat * 16 + n.toNat)) = .ok (.drw x y n) ∧
    (n.toNat = 0 ∨ s.i.toNat + n.toNat - 1 ≤ 4095 →
      ∃ t, exec (.drw x y n) s = .next t ∧ t.pc = s.pc + 2 ∧ RegsKept [15] s t ∧
        (∀ py px, lit t.fb py px = true ↔
          (lit s.fb py px = true ↔ ¬ Covered s (s.reg x).toNat (s.reg y).toNat n.toNat py px)) ∧
        ((∃ py px, Covered s (s.reg x).toNat (s.reg y).toNat n.toNat py px ∧ lit s.fb py px = true) →
          t.reg 15 = 1) ∧
        ((¬ ∃ py px, Covered s (s.reg x).toNat (s.reg y).toNat n.toNat py px ∧ lit s.fb py px = true) →
          t.reg 15 = 0)) ∧
    (0 < n.toNat → s.i.toNat + n.toNat - 1 > 4095 → exec (.drw x y n) s = .fault .outOfBoundsAccess)

/-- DERIVED (R184 is an inference): the same sprite drawn twice, with nothing between the two draws that changes `I`, the
sprite bytes, `V[x]`, `V[y]` or the screen, leaves the screen as it was; over a screen that was clear under a
sprite with a 1 bit, the second draw reports a collision. -/
def Obligations.DrawingTwiceErases : Prop :=
  ∀ (s t t' u : State) (x y n : Nibble), exec (.drw x y n) s = .next t →
    t'.fb = t.fb → t'.i = t.i → MemKept t t' → t'.reg x = s.reg x → t'.reg y = s.reg y →
    exec (.drw x y n) t' = .next u →
    ScreenKept s u ∧
    ((∃ py px, Covered s (s.reg x).toNat (s.reg y).toNat n.toNat py px) →
      (∀ py px, Covered s (s.reg x).toNat (s.reg y).toNat n.toNat py px → lit s.fb py px = false) →
      u.reg 15 = 1)

/-! ### Keys and timers -/

/-- DERIVED (R190, R191 rest on decision D10): the key skips test the key numbered by the low nibble of `V[x]`. -/
def Obligations.KeySkips : Prop :=
  ∀ (s : State) (x k : Nibble), k.toNat = (s.reg x).toNat % 16 →
    (decode (BitVec.ofNat 16 (0xE09E + x.toNat * 256)) = .ok (.skp x) ∧
      ∃ t, exec (.skp x) s = .next t ∧ RegsKept [] s t ∧
        t.pc = if s.keyDown k = true then s.pc + 4 else s.pc + 2) ∧
    (decode (BitVec.ofNat 16 (0xE0A1 + x.toNat * 256)) = .ok (.sknp x) ∧
      ∃ t, exec (.sknp x) s = .next t ∧ RegsKept [] s t ∧
        t.pc = if s.keyDown k = true then s.pc + 2 else s.pc + 4)

/-- DERIVED (R192 rests on decisions D11, D26, D33): FX0A takes the least pressed key; with none pressed it changes
nothing but `MODE`. -/
def Obligations.KeyWait : Prop :=
  ∀ (s : State) (x : Nibble),
    decode (BitVec.ofNat 16 (0xF00A + x.toNat * 256)) = .ok (.ldVxKey x) ∧
    (∀ k : Nibble, s.keyDown k = true → (∀ j : Nibble, j.toNat < k.toNat → s.keyDown j = false) →
      ∃ t, exec (.ldVxKey x) s = .next t ∧ (t.reg x).toNat = k.toNat ∧ RegsKept [x] s t ∧ t.pc = s.pc + 2 ∧
        t.mode = .normal ∧ t.key = s.key) ∧
    ((∀ k, s.keyDown k = false) → exec (.ldVxKey x) s = .next { s with mode := .awaitingKey })

/-- DERIVED (R193, decision D12): a cycle in which FX0A finds no key is a complete cycle that stays at the same
instruction and ticks both timers. -/
def Obligations.WaitingCycleTicks : Prop :=
  ∀ (s : State) (x : Nibble), s.pc.toNat ≤ 4094 → (wordAtPc s).toNat = 0xF00A + x.toNat * 256 →
    (∀ k, s.keyDown k = false) →
    ∃ u, step s = .next u ∧ u.pc = s.pc ∧ u.mode = .awaitingKey ∧ RegsKept [] s u ∧
      u.dt.toNat = s.dt.toNat - 1 ∧ u.st.toNat = s.st.toNat - 1 ∧
      cycle s = .ok (u, if s.st.toNat = 1 then .soundEdge else .normal)

/-- R194: FX07 reads `DT` as the previous cycle's tick left it; this cycle's own tick comes after the read. -/
def Obligations.ReadingTheDelayTimer : Prop :=
  ∀ (s : State) (x : Nibble),
    (decode (BitVec.ofNat 16 (0xF007 + x.toNat * 256)) = .ok (.ldVxDt x) ∧
      ∃ t, exec (.ldVxDt x) s = .next t ∧ t.reg x = s.dt ∧ RegsKept [x] s t ∧ t.pc = s.pc + 2) ∧
    (s.pc.toNat ≤ 4094 → (wordAtPc s).toNat = 0xF007 + x.toNat * 256 →
      ∃ u, step s = .next u ∧ u.reg x = s.dt ∧ u.dt.toNat = s.dt.toNat - 1)

/-- DERIVED (R195, R196 rest on decision D13): FX15 and FX18 load a timer. -/
def Obligations.LoadingATimer : Prop :=
  ∀ (s : State) (x : Nibble),
    (decode (BitVec.ofNat 16 (0xF015 + x.toNat * 256)) = .ok (.ldDtVx x) ∧
      ∃ t, exec (.ldDtVx x) s = .next t ∧ t.dt = s.reg x ∧ t.st = s.st ∧ RegsKept [] s t ∧ t.pc = s.pc + 2) ∧
    (decode (BitVec.ofNat 16 (0xF018 + x.toNat * 256)) = .ok (.ldStVx x) ∧
      ∃ t, exec (.ldStVx x) s = .next t ∧ t.st = s.reg x ∧ t.dt = s.dt ∧ RegsKept [] s t ∧ t.pc = s.pc + 2)

/-- DERIVED (R195, R196, R97 rest on decisions D13, D25): a loaded timer is ticked in the loading cycle; loading 1 into
`ST` reports the sound edge in that very cycle, and loading 0 never does. -/
def Obligations.LoadedTimerTicksAtOnce : Prop :=
  ∀ (s : State) (x : Nibble), s.pc.toNat ≤ 4094 →
    ((wordAtPc s).toNat = 0xF015 + x.toNat * 256 →
      ∃ u, step s = .next u ∧ u.dt.toNat = (s.reg x).toNat - 1) ∧
    ((wordAtPc s).toNat = 0xF018 + x.toNat * 256 →
      ∃ u, step s = .next u ∧ u.st.toNat = (s.reg x).toNat - 1 ∧
        cycle s = .ok (u, if (s.reg x).toNat = 1 then .soundEdge else .normal))

/-! ### Frames: what each instruction leaves unchanged (all DERIVED: R95 reads the table's rows as complete, decision D3)

`pc` and `MODE` are not mentioned: `pc` may change, and `MODE` is stated by `WhenTheMachineAwaitsAKey`. -/

/-- Instructions that write one general register and nothing else, but for the draw CXNN consumes. -/
def Obligations.RegisterWriteFrame : Prop :=
  ∀ (i : Instr) (s t : State) (x y : Nibble) (nn : Byte),
    i ∈ [.ldImm x nn, .addImm x nn, .ldReg x y, .orReg x y, .andReg x y, .xorReg x y, .rnd x nn, .ldVxDt x,
      .ldVxKey x] → exec i s = .next t →
    RegsKept [x] s t ∧ t.i = s.i ∧ StackKept s t ∧ TimersKept s t ∧ ScreenKept s t ∧ MemKept s t ∧
      t.key = s.key ∧ t.edge = s.edge ∧ t.draws = if i = .rnd x nn then s.draws + 1 else s.draws

/-- Instructions that write a result and the flag. -/
def Obligations.FlagWriteFrame : Prop :=
  ∀ (i : Instr) (s t : State) (x y : Nibble),
    i ∈ [.addReg x y, .sub x y, .shr x y, .subn x y, .shl x y] → exec i s = .next t →
    RegsKept [x, 15] s t ∧ t.i = s.i ∧ StackKept s t ∧ TimersKept s t ∧ ScreenKept s t ∧ MemKept s t ∧
      LatchKept s t

/-- Jumps and skips write the program counter only. -/
def Obligations.JumpAndSkipFrame : Prop :=
  ∀ (i : Instr) (s t : State) (x y : Nibble) (nn : Byte) (nnn : Addr),
    i ∈ [.jp nnn, .jpV0 nnn, .seImm x nn, .sneImm x nn, .seReg x y, .sneReg x y, .skp x, .sknp x] →
    exec i s = .next t →
    RegsKept [] s t ∧ t.i = s.i ∧ StackKept s t ∧ TimersKept s t ∧ ScreenKept s t ∧ MemKept s t ∧
      LatchKept s t

/-- A call writes one stack entry and the depth; a return writes the depth only. -/
def Obligations.CallAndReturnFrame : Prop :=
  ∀ (i : Instr) (s t : State) (nnn : Addr), i ∈ [.call nnn, .ret] → exec i s = .next t →
    RegsKept [] s t ∧ t.i = s.i ∧ TimersKept s t ∧ ScreenKept s t ∧ MemKept s t ∧ LatchKept s t ∧
      ∀ k : Fin 16, i = .ret ∨ k.val ≠ s.sp.val → t.stack.get k = s.stack.get k

/-- The three instructions that set `I` write nothing else. -/
def Obligations.AddressRegisterFrame : Prop :=
  ∀ (i : Instr) (s t : State) (x : Nibble) (nnn : Addr), i ∈ [.ldI nnn, .addI x, .ldFont x] →
    exec i s = .next t →
    RegsKept [] s t ∧ StackKept s t ∧ TimersKept s t ∧ ScreenKept s t ∧ MemKept s t ∧ LatchKept s t

/-- FX33 stores three bytes at `I`, FX55 stores `x + 1`; every byte outside them, and everything else, stays. The
address is the one the meanings compute. -/
def Obligations.StoreFrame : Prop :=
  ∀ (i : Instr) (s t : State) (x : Nibble), i ∈ [.ldBcd x, .stRegs x] → exec i s = .next t →
    RegsKept [] s t ∧ t.i = s.i ∧ StackKept s t ∧ TimersKept s t ∧ ScreenKept s t ∧ LatchKept s t ∧
      MemKeptOutside (s.effAddr 0) (if i = .ldBcd x then 3 else x.toNat + 1) s t

/-- FX65 writes no register above `V[x]` and nothing but registers. -/
def Obligations.BlockLoadFrame : Prop :=
  ∀ (s t : State) (x : Nibble), exec (.ldRegs x) s = .next t →
    (∀ r : Nibble, x.toNat < r.toNat → t.reg r = s.reg r) ∧ t.i = s.i ∧ StackKept s t ∧ TimersKept s t ∧
      ScreenKept s t ∧ MemKept s t ∧ LatchKept s t

/-- 00E0 writes the screen only; DXYN writes the screen and `V[15]` only, and leaves `I` and the sprite alone. -/
def Obligations.DisplayFrame : Prop :=
  ∀ (i : Instr) (s t : State) (x y n : Nibble), i ∈ [.cls, .drw x y n] → exec i s = .next t →
    RegsKept (if i = .cls then [] else [15]) s t ∧ t.i = s.i ∧ StackKept s t ∧ TimersKept s t ∧
      MemKept s t ∧ LatchKept s t

/-- FX15 and FX18 write one timer each and nothing else. -/
def Obligations.TimerLoadFrame : Prop :=
  ∀ (i : Instr) (s t : State) (x : Nibble), i ∈ [.ldDtVx x, .ldStVx x] → exec i s = .next t →
    RegsKept [] s t ∧ t.i = s.i ∧ StackKept s t ∧ ScreenKept s t ∧ MemKept s t ∧ LatchKept s t ∧
      (if i = .ldDtVx x then t.st = s.st else t.dt = s.dt)
end

