-- ==== Sys2Proof/Laws/Decode.lean ====
section
/-! SUPPORT. The fields of an instruction word as numbers, and the fields of the encoder's words. -/

namespace Sys2Proof

theorem toNat_fieldT (op : Word) : (fieldT op).toNat = op.toNat / 4096 := by
  have := op.isLt
  simp [fieldT, BitVec.extractLsb'_toNat, Nat.shiftRight_eq_div_pow]
  omega

theorem toNat_fieldX (op : Word) : (fieldX op).toNat = op.toNat / 256 % 16 := by
  simp [fieldX, BitVec.extractLsb'_toNat, Nat.shiftRight_eq_div_pow]

theorem toNat_fieldY (op : Word) : (fieldY op).toNat = op.toNat / 16 % 16 := by
  simp [fieldY, BitVec.extractLsb'_toNat, Nat.shiftRight_eq_div_pow]

theorem toNat_fieldN (op : Word) : (fieldN op).toNat = op.toNat % 16 := by
  simp [fieldN, BitVec.extractLsb'_toNat]

theorem toNat_fieldNN (op : Word) : (fieldNN op).toNat = op.toNat % 256 := by
  simp [fieldNN, BitVec.extractLsb'_toNat]

theorem toNat_fieldNNN (op : Word) : (fieldNNN op).toNat = op.toNat % 4096 := by
  simp [fieldNNN, BitVec.extractLsb'_toNat]

theorem toNat_wordOfBytes (hi lo : Byte) : (wordOfBytes hi lo).toNat = hi.toNat * 256 + lo.toNat := by
  have := hi.isLt
  have := lo.isLt
  simp [wordOfBytes]
  omega

/-- A word is the word its two bytes make (R54). -/
@[simp] theorem wordOfBytes_bytes (op : Word) : wordOfBytes (highByte op) (lowByte op) = op := by
  have := op.isLt
  apply BitVec.eq_of_toNat_eq
  rw [toNat_wordOfBytes]
  simp [highByte, lowByte, BitVec.extractLsb'_toNat, Nat.shiftRight_eq_div_pow]
  omega

/-! ### The masks of the opcode map (R74) -/

theorem toNat_mask_low4 (op : Word) : (op &&& 0x000F#16).toNat = op.toNat % 16 := by
  rw [BitVec.toNat_and]
  exact Nat.and_two_pow_sub_one_eq_mod op.toNat 4

theorem toNat_mask_low8 (op : Word) : (op &&& 0x00FF#16).toNat = op.toNat % 256 := by
  rw [BitVec.toNat_and]
  exact Nat.and_two_pow_sub_one_eq_mod op.toNat 8

/-- The mask 0xF000 keeps the family nibble. -/
theorem toNat_mask_F000 (op : Word) : (op &&& 0xF000#16).toNat = op.toNat / 4096 * 4096 := by
  have e : op &&& 0xF000#16 = (op >>> 12) <<< 12 := by
    ext i hi
    interval_cases i <;> simp
  have := op.isLt
  rw [e]
  simp [Nat.shiftLeft_eq, Nat.shiftRight_eq_div_pow]
  omega

/-- The mask 0xF00F keeps the family nibble and the low nibble. -/
theorem toNat_mask_F00F (op : Word) : (op &&& 0xF00F#16).toNat = op.toNat / 4096 * 4096 + op.toNat % 16 := by
  have e : op &&& 0xF00F#16 = (op &&& 0xF000#16) + (op &&& 0x000F#16) := by
    rw [BitVec.add_eq_or_of_and_eq_zero]
    all_goals
      ext i hi
      interval_cases i <;> simp
  have := op.isLt
  rw [e, BitVec.toNat_add, toNat_mask_F000, toNat_mask_low4]
  omega

/-- The mask 0xF0FF keeps the family nibble and the low byte. -/
theorem toNat_mask_F0FF (op : Word) : (op &&& 0xF0FF#16).toNat = op.toNat / 4096 * 4096 + op.toNat % 256 := by
  have e : op &&& 0xF0FF#16 = (op &&& 0xF000#16) + (op &&& 0x00FF#16) := by
    rw [BitVec.add_eq_or_of_and_eq_zero]
    all_goals
      ext i hi
      interval_cases i <;> simp
  have := op.isLt
  rw [e, BitVec.toNat_add, toNat_mask_F000, toNat_mask_low8]
  omega

/-! ### The encoder's words (R82) -/

theorem toNat_wordA {bits : Nat} (nnn : Addr) (h : bits + 4096 ≤ 65536) :
    (wordA bits nnn).toNat = bits + nnn.toNat := by
  have := nnn.isLt
  simp [wordA]
  omega

theorem toNat_wordXI {bits : Nat} (x : Nibble) (nn : Byte) (h : bits + 4096 ≤ 65536) :
    (wordXI bits x nn).toNat = bits + x.toNat * 256 + nn.toNat := by
  have := x.isLt
  have := nn.isLt
  simp [wordXI]
  omega

theorem toNat_wordXY {bits : Nat} (x y : Nibble) (h : bits + 4080 < 65536) :
    (wordXY bits x y).toNat = bits + x.toNat * 256 + y.toNat * 16 := by
  have := x.isLt
  have := y.isLt
  simp [wordXY]
  omega

theorem toNat_wordXS {bits : Nat} (x : Nibble) (h : bits + 3840 < 65536) :
    (wordXS bits x).toNat = bits + x.toNat * 256 := by
  have := x.isLt
  simp [wordXS]
  omega

end Sys2Proof
end

