-- ==== Sys2Proof/Laws/Display.lean ====
section
/-! SUPPORT. Pixels: what one toggle does, and what one sprite row does to the screen and to the collision bit. -/

namespace Sys2Proof.Machine

/-- A toggle flips its own pixel and leaves every other pixel alone. -/
theorem lit_toggle (fb : Framebuffer) (y y' : Fin 32) (x x' : Fin 64) :
    lit (toggle fb y x) y' x' = (lit fb y' x' ^^ decide (y' = y ∧ x' = x)) := by
  unfold lit toggle
  by_cases hy : y' = y
  · subst hy
    have hx' := x'.isLt
    by_cases hx : x' = x
    · subst hx
      simp [Vector.get_eq_getElem, hx']
    · have hne : x'.val ≠ x.val := fun h => hx (Fin.ext h)
      by_cases hlt : x' < x
      · simp [Vector.get_eq_getElem, hx, hlt]
      · have : x'.val - x.val ≠ 0 := by
          rw [Fin.lt_def] at hlt
          omega
        simp [Vector.get_eq_getElem, hx, this]
  · have hne : y.val ≠ y'.val := fun h => hy (Fin.ext h.symm)
    simp [Vector.get_eq_getElem, hy, hne]

@[simp] theorem plot_fb (d : Drawing) (y : Fin 32) (x : Fin 64) : (plot d y x).fb = toggle d.fb y x := rfl

@[simp] theorem plot_hit (d : Drawing) (y : Fin 32) (x : Fin 64) : (plot d y x).hit = (d.hit || lit d.fb y x) := rfl

/-- A cleared screen has no lit pixel (R180). -/
theorem lit_cleared (y : Fin 32) (x : Fin 64) : lit (Vector.replicate 32 0) y x = false := by
  simp [lit, Vector.get_eq_getElem]

/-- Eight neighbouring columns are eight different columns (R182). -/
theorem column_inj {vx c c' : Nat} (hc : c < 8) (hc' : c' < 8)
    (h : Fin.ofNat 64 (vx + c) = Fin.ofNat 64 (vx + c')) : c = c' := by
  have := congrArg Fin.val h
  simp only [Fin.val_ofNat] at this
  omega

/-- The columns of one sprite row, any of them: the pixels under 1 bits are flipped. -/
theorem lit_columns (b : Byte) (vx : Nat) (py : Fin 32) (cols : List Nat) (hn : cols.Nodup)
    (h8 : ∀ c ∈ cols, c < 8) (d : Drawing) (y : Fin 32) (x : Fin 64) :
    lit (cols.foldl (fun d col => if b.getLsbD (7 - col) then plot d py (Fin.ofNat 64 (vx + col)) else d) d).fb y x =
      (lit d.fb y x ^^ decide (y = py ∧ ∃ c ∈ cols, b.getLsbD (7 - c) = true ∧ x = Fin.ofNat 64 (vx + c))) := by
  induction cols generalizing d with
  | nil => simp
  | cons c cs ih =>
    have hc8 : c < 8 := h8 c (by simp)
    have hcs : c ∉ cs := (List.nodup_cons.mp hn).1
    rw [List.foldl_cons, ih (List.nodup_cons.mp hn).2 fun e he => h8 e (by simp [he])]
    by_cases hb : b.getLsbD (7 - c) = true
    · rw [if_pos hb, plot_fb, lit_toggle, Bool.xor_assoc]
      congr 1
      by_cases hy : y = py
      · by_cases hx : x = Fin.ofNat 64 (vx + c)
        · have hno : ¬ ∃ e ∈ cs, b.getLsbD (7 - e) = true ∧ x = Fin.ofNat 64 (vx + e) := by
            rintro ⟨e, he, -, hxe⟩
            have : c = e := column_inj hc8 (h8 e (by simp [he])) (hx.symm.trans hxe)
            exact hcs (this ▸ he)
          have hyes : ∃ e ∈ c :: cs, b.getLsbD (7 - e) = true ∧ x = Fin.ofNat 64 (vx + e) :=
            ⟨c, by simp, hb, hx⟩
          rw [decide_eq_false (p := y = py ∧ ∃ e ∈ cs, _) fun h => hno h.2, decide_eq_true (p := y = py ∧ x = _) ⟨hy, hx⟩,
            decide_eq_true (p := y = py ∧ ∃ e ∈ c :: cs, _) ⟨hy, hyes⟩]
          rfl
        · rw [decide_eq_false (p := y = py ∧ x = _) fun h => hx h.2, Bool.false_xor]
          simp only [List.mem_cons, exists_eq_or_imp, hx, and_false, false_or]
      · simp [hy]
    · rw [if_neg hb]
      simp [hb]

/-- The columns of one sprite row, any of them: a collision is a lit pixel under a 1 bit. -/
theorem hit_columns (b : Byte) (vx : Nat) (py : Fin 32) (cols : List Nat) (hn : cols.Nodup)
    (h8 : ∀ c ∈ cols, c < 8) (d : Drawing) :
    (cols.foldl (fun d col => if b.getLsbD (7 - col) then plot d py (Fin.ofNat 64 (vx + col)) else d) d).hit =
      (d.hit || decide (∃ c ∈ cols, b.getLsbD (7 - c) = true ∧ lit d.fb py (Fin.ofNat 64 (vx + c)) = true)) := by
  induction cols generalizing d with
  | nil => simp
  | cons c cs ih =>
    have hc8 : c < 8 := h8 c (by simp)
    have hcs : c ∉ cs := (List.nodup_cons.mp hn).1
    rw [List.foldl_cons, ih (List.nodup_cons.mp hn).2 fun e he => h8 e (by simp [he])]
    by_cases hb : b.getLsbD (7 - c) = true
    · have same : ∀ e ∈ cs, lit (plot d py (Fin.ofNat 64 (vx + c))).fb py (Fin.ofNat 64 (vx + e)) =
          lit d.fb py (Fin.ofNat 64 (vx + e)) := by
        intro e he
        have : ¬ Fin.ofNat 64 (vx + e) = Fin.ofNat 64 (vx + c) := fun h =>
          hcs (column_inj (h8 e (by simp [he])) hc8 h ▸ he)
        rw [plot_fb, lit_toggle, decide_eq_false fun h => this h.2, Bool.xor_false]
      have e1 : (∃ e ∈ cs, b.getLsbD (7 - e) = true ∧
            lit (plot d py (Fin.ofNat 64 (vx + c))).fb py (Fin.ofNat 64 (vx + e)) = true) ↔
          ∃ e ∈ cs, b.getLsbD (7 - e) = true ∧ lit d.fb py (Fin.ofNat 64 (vx + e)) = true :=
        exists_congr fun e => and_congr_right fun he => by rw [same e he]
      simp only [if_pos hb, e1]
      simp [hb, Bool.or_assoc]
    · simp [hb]

/-- One sprite row flips the pixels under its 1 bits, in its own screen row, and no other pixel (R181, R182). -/
theorem lit_drawRow (b : Byte) (vx : Nat) (py : Fin 32) (d : Drawing) (y : Fin 32) (x : Fin 64) :
    lit (drawRow b vx py d).fb y x =
      (lit d.fb y x ^^
        decide (y = py ∧ ∃ c ∈ List.range 8, b.getLsbD (7 - c) = true ∧ x = Fin.ofNat 64 (vx + c))) :=
  lit_columns b vx py (List.range 8) List.nodup_range (fun _ h => List.mem_range.mp h) d y x

/-- One sprite row collides when a lit pixel lies under one of its 1 bits (R181). -/
theorem hit_drawRow (b : Byte) (vx : Nat) (py : Fin 32) (d : Drawing) :
    (drawRow b vx py d).hit =
      (d.hit ||
        decide (∃ c ∈ List.range 8, b.getLsbD (7 - c) = true ∧ lit d.fb py (Fin.ofNat 64 (vx + c)) = true)) :=
  hit_columns b vx py (List.range 8) List.nodup_range (fun _ h => List.mem_range.mp h) d

end Sys2Proof.Machine
end

