-- ==== Sys2Proof/Laws/Memory.lean ====
section
/-! SUPPORT. Memory: a read gives the latest write, a write leaves every other address alone, every operation keeps
the canonical form, and canonical memories that read alike are equal. -/

namespace Sys2Proof.Machine.Mem

theorem read_without_self (m : List Host.Cell) (a : Nat) : read (without m a) a = resetByte a := by
  induction m with
  | nil => rfl
  | cons c rest ih =>
    by_cases h : c.1 = a
    · simpa [without, h] using ih
    · have : without (c :: rest) a = c :: without rest a := by simp [without, h]
      rw [this, read, if_neg h, ih]

theorem read_without_other (m : List Host.Cell) {a b : Nat} (h : b ≠ a) : read (without m a) b = read m b := by
  induction m with
  | nil => rfl
  | cons c rest ih =>
    by_cases hc : c.1 = a
    · have : without (c :: rest) a = without rest a := by simp [without, hc]
      rw [this, ih, read, if_neg (by omega)]
    · have : without (c :: rest) a = c :: without rest a := by simp [without, hc]
      rw [this, read, read, ih]

theorem without_absent (m : List Host.Cell) (a : Nat) : ∀ c ∈ without m a, c.1 ≠ a := by
  simp [without]

theorem read_insert_self (m : List Host.Cell) (a : Nat) (w : Byte) (h : ∀ c ∈ m, c.1 ≠ a) :
    read (insert m a w) a = w := by
  induction m with
  | nil => simp [insert, read]
  | cons c rest ih =>
    have hc : c.1 ≠ a := h c (by simp)
    simp only [insert]
    split
    · simp [read]
    · rw [read, if_neg hc, ih fun d hd => h d (by simp [hd])]

theorem read_insert_other (m : List Host.Cell) {a b : Nat} (w : Byte) (h : b ≠ a) :
    read (insert m a w) b = read m b := by
  induction m with
  | nil => simp [insert, read, Ne.symm h]
  | cons c rest ih =>
    simp only [insert]
    split
    · rw [read, if_neg (Ne.symm h)]
    · rw [read, read, ih]

/-- A read after a write to the same address gives the byte written (R59). -/
@[simp] theorem read_write_self (m : List Host.Cell) (a : Nat) (w : Byte) : read (write m a w) a = w := by
  unfold write
  split
  · rename_i h
    rw [read_without_self, h]
  · exact read_insert_self _ _ _ (without_absent m a)

/-- A write leaves every other address alone (R59). -/
theorem read_write_other (m : List Host.Cell) {a b : Nat} (w : Byte) (h : b ≠ a) :
    read (write m a w) b = read m b := by
  unfold write
  split
  · exact read_without_other m h
  · rw [read_insert_other _ w h, read_without_other m h]

/-- What a list of writes at `a`, `a+1`, ... leaves at each address. -/
theorem read_writeList (m : List Host.Cell) (a : Nat) (ws : List Byte) (b : Nat) :
    read (writeList m a ws) b =
      if a ≤ b ∧ b < a + ws.length then ws.getD (b - a) 0 else read m b := by
  induction ws generalizing m a with
  | nil => simp [writeList]
  | cons w ws ih =>
    rw [writeList, ih]
    by_cases hb : b = a
    · subst hb
      simp
    · have e1 : (a + 1 ≤ b ∧ b < a + 1 + ws.length) ↔ (a ≤ b ∧ b < a + (w :: ws).length) := by
        simp only [List.length_cons]; omega
      simp only [e1, read_write_other _ w hb]
      split
      · rename_i h
        obtain ⟨k, hk⟩ : ∃ k, b - a = k + 1 := ⟨b - a - 1, by omega⟩
        rw [hk, show b - (a + 1) = k by omega]
        simp
      · rfl

/-! ### The canonical form -/

theorem wfFrom_mono {m : List Host.Cell} {lo lo' : Nat} (h : lo' ≤ lo) (hm : wfFrom lo m = true) :
    wfFrom lo' m = true := by
  cases m with
  | nil => rfl
  | cons c rest =>
    obtain ⟨a, w⟩ := c
    simp only [wfFrom, Bool.and_eq_true, decide_eq_true_eq] at hm ⊢
    exact ⟨⟨⟨by omega, hm.1.1.2⟩, hm.1.2⟩, hm.2⟩

theorem wfFrom_without {m : List Host.Cell} {lo : Nat} (a : Nat) (hm : wfFrom lo m = true) :
    wfFrom lo (without m a) = true := by
  induction m generalizing lo with
  | nil => rfl
  | cons c rest ih =>
    obtain ⟨b, w⟩ := c
    simp only [wfFrom, Bool.and_eq_true, decide_eq_true_eq] at hm
    by_cases hb : b = a
    · have : without ((b, w) :: rest) a = without rest a := by simp [without, hb]
      rw [this]
      exact wfFrom_mono (by omega) (ih hm.2)
    · have : without ((b, w) :: rest) a = (b, w) :: without rest a := by simp [without, hb]
      rw [this]
      simp only [wfFrom, Bool.and_eq_true, decide_eq_true_eq]
      exact ⟨hm.1, ih hm.2⟩

theorem wfFrom_insert {m : List Host.Cell} {lo a : Nat} {w : Byte} (hlo : lo ≤ a) (ha : a < 4096)
    (hw : w ≠ resetByte a) (hm : wfFrom lo m = true) (habs : ∀ c ∈ m, c.1 ≠ a) :
    wfFrom lo (insert m a w) = true := by
  induction m generalizing lo with
  | nil => simp [insert, wfFrom, hlo, ha, hw]
  | cons c rest ih =>
    obtain ⟨b, u⟩ := c
    have hb : b ≠ a := habs (b, u) (by simp)
    simp only [wfFrom, Bool.and_eq_true, decide_eq_true_eq] at hm
    simp only [insert]
    split
    · rename_i hab
      simp only [wfFrom, Bool.and_eq_true, decide_eq_true_eq, bne_iff_ne, ne_eq]
      simp only [bne_iff_ne, ne_eq] at hm
      exact ⟨⟨⟨hlo, ha⟩, hw⟩, ⟨⟨by omega, hm.1.1.2⟩, hm.1.2⟩, hm.2⟩
    · rename_i hab
      simp only [wfFrom, Bool.and_eq_true, decide_eq_true_eq]
      exact ⟨hm.1, ih (by omega) hm.2 fun d hd => habs d (by simp [hd])⟩

/-- A write inside memory keeps the canonical form. -/
theorem wf_write {m : List Host.Cell} {a : Nat} (w : Byte) (ha : a < 4096) (hm : wf m = true) :
    wf (write m a w) = true := by
  unfold write
  split
  · exact wfFrom_without a hm
  · rename_i hw
    exact wfFrom_insert (Nat.zero_le a) ha hw (wfFrom_without a hm) (without_absent m a)

/-- A list of writes inside memory keeps the canonical form. -/
theorem wf_writeList {m : List Host.Cell} {a : Nat} {ws : List Byte} (ha : a + ws.length ≤ 4096)
    (hm : wf m = true) : wf (writeList m a ws) = true := by
  induction ws generalizing m a with
  | nil => exact hm
  | cons w ws ih =>
    simp only [List.length_cons] at ha
    exact ih (by omega) (wf_write w (by omega) hm)

theorem read_below {m : List Host.Cell} {lo b : Nat} (hm : wfFrom lo m = true) (hb : b < lo) :
    read m b = resetByte b := by
  induction m generalizing lo with
  | nil => rfl
  | cons c rest ih =>
    obtain ⟨a, w⟩ := c
    simp only [wfFrom, Bool.and_eq_true, decide_eq_true_eq] at hm
    rw [read, if_neg (by omega), ih hm.2 (by omega)]

theorem wfFrom_ext {m m' : List Host.Cell} {lo : Nat} (hm : wfFrom lo m = true) (hm' : wfFrom lo m' = true)
    (h : ∀ a, read m a = read m' a) : m = m' := by
  induction m generalizing m' lo with
  | nil =>
    cases m' with
    | nil => rfl
    | cons c rest =>
      obtain ⟨a, w⟩ := c
      simp only [wfFrom, Bool.and_eq_true, bne_iff_ne, ne_eq] at hm'
      exact absurd (by simpa [read] using (h a).symm) hm'.1.2
  | cons c rest ih =>
    obtain ⟨a, w⟩ := c
    simp only [wfFrom, Bool.and_eq_true, bne_iff_ne, ne_eq, decide_eq_true_eq] at hm
    cases m' with
    | nil => exact absurd (by simpa [read] using h a) hm.1.2
    | cons c' rest' =>
      obtain ⟨a', w'⟩ := c'
      simp only [wfFrom, Bool.and_eq_true, bne_iff_ne, ne_eq, decide_eq_true_eq] at hm'
      have e : a = a' := by
        rcases Nat.lt_trichotomy a a' with hlt | heq | hgt
        · have h1 := h a
          rw [read, if_pos rfl, read, if_neg (by omega), read_below hm'.2 (by omega)] at h1
          exact absurd h1 hm.1.2
        · exact heq
        · have h1 := h a'
          rw [read, if_neg (by omega), read_below hm.2 (by omega), read, if_pos rfl] at h1
          exact absurd h1.symm hm'.1.2
      subst e
      have ew : w = w' := by simpa [read] using h a
      subst ew
      have hrest : ∀ b, read rest b = read rest' b := by
        intro b
        by_cases hb : a = b
        · subst hb
          rw [read_below hm.2 (by omega), read_below hm'.2 (by omega)]
        · simpa [read, hb] using h b
      rw [ih hm.2 hm'.2 hrest]

/-- Canonical memories that read alike at every address are the same data. -/
theorem wf_ext {m m' : List Host.Cell} (hm : wf m = true) (hm' : wf m' = true)
    (h : ∀ a, read m a = read m' a) : m = m' :=
  wfFrom_ext hm hm' h

/-- The memory of the reset state is canonical. -/
theorem wf_nil : wf [] = true := rfl

end Sys2Proof.Machine.Mem
end

