-- ==== Sys2Proof/Laws/State.lean ====
section
/-! SUPPORT. One lemma per field per state update, all true by rfl, so that no proof unfolds a record update. -/

namespace Sys2Proof.Machine.State

variable (s : State)

/-! ### `setReg` -/

@[simp] theorem setReg_i (r : Nibble) (b : Byte) : (s.setReg r b).i = s.i := rfl
@[simp] theorem setReg_pc (r : Nibble) (b : Byte) : (s.setReg r b).pc = s.pc := rfl
@[simp] theorem setReg_sp (r : Nibble) (b : Byte) : (s.setReg r b).sp = s.sp := rfl
@[simp] theorem setReg_stack (r : Nibble) (b : Byte) : (s.setReg r b).stack = s.stack := rfl
@[simp] theorem setReg_dt (r : Nibble) (b : Byte) : (s.setReg r b).dt = s.dt := rfl
@[simp] theorem setReg_st (r : Nibble) (b : Byte) : (s.setReg r b).st = s.st := rfl
@[simp] theorem setReg_fb (r : Nibble) (b : Byte) : (s.setReg r b).fb = s.fb := rfl
@[simp] theorem setReg_key (r : Nibble) (b : Byte) : (s.setReg r b).key = s.key := rfl
@[simp] theorem setReg_mode (r : Nibble) (b : Byte) : (s.setReg r b).mode = s.mode := rfl
@[simp] theorem setReg_mem (r : Nibble) (b : Byte) : (s.setReg r b).mem = s.mem := rfl
@[simp] theorem setReg_edge (r : Nibble) (b : Byte) : (s.setReg r b).edge = s.edge := rfl
@[simp] theorem setReg_draws (r : Nibble) (b : Byte) : (s.setReg r b).draws = s.draws := rfl
@[simp] theorem setReg_byteAt (r : Nibble) (b : Byte) (c : Nat) : (s.setReg r b).byteAt c = s.byteAt c := rfl

/-! ### `setI` -/

@[simp] theorem setI_v (a : Addr) : (s.setI a).v = s.v := rfl
@[simp] theorem setI_i (a : Addr) : (s.setI a).i = a := rfl
@[simp] theorem setI_pc (a : Addr) : (s.setI a).pc = s.pc := rfl
@[simp] theorem setI_sp (a : Addr) : (s.setI a).sp = s.sp := rfl
@[simp] theorem setI_stack (a : Addr) : (s.setI a).stack = s.stack := rfl
@[simp] theorem setI_dt (a : Addr) : (s.setI a).dt = s.dt := rfl
@[simp] theorem setI_st (a : Addr) : (s.setI a).st = s.st := rfl
@[simp] theorem setI_fb (a : Addr) : (s.setI a).fb = s.fb := rfl
@[simp] theorem setI_key (a : Addr) : (s.setI a).key = s.key := rfl
@[simp] theorem setI_mode (a : Addr) : (s.setI a).mode = s.mode := rfl
@[simp] theorem setI_mem (a : Addr) : (s.setI a).mem = s.mem := rfl
@[simp] theorem setI_edge (a : Addr) : (s.setI a).edge = s.edge := rfl
@[simp] theorem setI_draws (a : Addr) : (s.setI a).draws = s.draws := rfl
@[simp] theorem setI_reg (a : Addr) (q : Nibble) : (s.setI a).reg q = s.reg q := rfl
@[simp] theorem setI_byteAt (a : Addr) (c : Nat) : (s.setI a).byteAt c = s.byteAt c := rfl

/-! ### `storeBytes` -/

@[simp] theorem storeBytes_v (a : Nat) (ws : List Byte) : (s.storeBytes a ws).v = s.v := rfl
@[simp] theorem storeBytes_i (a : Nat) (ws : List Byte) : (s.storeBytes a ws).i = s.i := rfl
@[simp] theorem storeBytes_pc (a : Nat) (ws : List Byte) : (s.storeBytes a ws).pc = s.pc := rfl
@[simp] theorem storeBytes_sp (a : Nat) (ws : List Byte) : (s.storeBytes a ws).sp = s.sp := rfl
@[simp] theorem storeBytes_stack (a : Nat) (ws : List Byte) : (s.storeBytes a ws).stack = s.stack := rfl
@[simp] theorem storeBytes_dt (a : Nat) (ws : List Byte) : (s.storeBytes a ws).dt = s.dt := rfl
@[simp] theorem storeBytes_st (a : Nat) (ws : List Byte) : (s.storeBytes a ws).st = s.st := rfl
@[simp] theorem storeBytes_fb (a : Nat) (ws : List Byte) : (s.storeBytes a ws).fb = s.fb := rfl
@[simp] theorem storeBytes_key (a : Nat) (ws : List Byte) : (s.storeBytes a ws).key = s.key := rfl
@[simp] theorem storeBytes_mode (a : Nat) (ws : List Byte) : (s.storeBytes a ws).mode = s.mode := rfl
@[simp] theorem storeBytes_mem (a : Nat) (ws : List Byte) : (s.storeBytes a ws).mem = Mem.writeList s.mem a ws := rfl
@[simp] theorem storeBytes_edge (a : Nat) (ws : List Byte) : (s.storeBytes a ws).edge = s.edge := rfl
@[simp] theorem storeBytes_draws (a : Nat) (ws : List Byte) : (s.storeBytes a ws).draws = s.draws := rfl
@[simp] theorem storeBytes_reg (a : Nat) (ws : List Byte) (q : Nibble) : (s.storeBytes a ws).reg q = s.reg q := rfl

/-! ### `push` -/

@[simp] theorem push_v (w : Word) (room : s.sp.val < 16) : (s.push w room).v = s.v := rfl
@[simp] theorem push_i (w : Word) (room : s.sp.val < 16) : (s.push w room).i = s.i := rfl
@[simp] theorem push_pc (w : Word) (room : s.sp.val < 16) : (s.push w room).pc = s.pc := rfl
@[simp] theorem push_stack (w : Word) (room : s.sp.val < 16) : (s.push w room).stack = s.stack.set s.sp.val w room := rfl
@[simp] theorem push_dt (w : Word) (room : s.sp.val < 16) : (s.push w room).dt = s.dt := rfl
@[simp] theorem push_st (w : Word) (room : s.sp.val < 16) : (s.push w room).st = s.st := rfl
@[simp] theorem push_fb (w : Word) (room : s.sp.val < 16) : (s.push w room).fb = s.fb := rfl
@[simp] theorem push_key (w : Word) (room : s.sp.val < 16) : (s.push w room).key = s.key := rfl
@[simp] theorem push_mode (w : Word) (room : s.sp.val < 16) : (s.push w room).mode = s.mode := rfl
@[simp] theorem push_mem (w : Word) (room : s.sp.val < 16) : (s.push w room).mem = s.mem := rfl
@[simp] theorem push_edge (w : Word) (room : s.sp.val < 16) : (s.push w room).edge = s.edge := rfl
@[simp] theorem push_draws (w : Word) (room : s.sp.val < 16) : (s.push w room).draws = s.draws := rfl
@[simp] theorem push_reg (w : Word) (room : s.sp.val < 16) (q : Nibble) : (s.push w room).reg q = s.reg q := rfl
@[simp] theorem push_byteAt (w : Word) (room : s.sp.val < 16) (c : Nat) : (s.push w room).byteAt c = s.byteAt c := rfl

/-! ### `drop` -/

@[simp] theorem drop_v : (s.drop).v = s.v := rfl
@[simp] theorem drop_i : (s.drop).i = s.i := rfl
@[simp] theorem drop_pc : (s.drop).pc = s.pc := rfl
@[simp] theorem drop_stack : (s.drop).stack = s.stack := rfl
@[simp] theorem drop_dt : (s.drop).dt = s.dt := rfl
@[simp] theorem drop_st : (s.drop).st = s.st := rfl
@[simp] theorem drop_fb : (s.drop).fb = s.fb := rfl
@[simp] theorem drop_key : (s.drop).key = s.key := rfl
@[simp] theorem drop_mode : (s.drop).mode = s.mode := rfl
@[simp] theorem drop_mem : (s.drop).mem = s.mem := rfl
@[simp] theorem drop_edge : (s.drop).edge = s.edge := rfl
@[simp] theorem drop_draws : (s.drop).draws = s.draws := rfl
@[simp] theorem drop_reg (q : Nibble) : (s.drop).reg q = s.reg q := rfl
@[simp] theorem drop_byteAt (c : Nat) : (s.drop).byteAt c = s.byteAt c := rfl

/-! ### `write2` -/

@[simp] theorem write2_i (x : Nibble) (f r : Byte) : (s.write2 x f r).i = s.i := rfl
@[simp] theorem write2_pc (x : Nibble) (f r : Byte) : (s.write2 x f r).pc = s.pc := rfl
@[simp] theorem write2_sp (x : Nibble) (f r : Byte) : (s.write2 x f r).sp = s.sp := rfl
@[simp] theorem write2_stack (x : Nibble) (f r : Byte) : (s.write2 x f r).stack = s.stack := rfl
@[simp] theorem write2_dt (x : Nibble) (f r : Byte) : (s.write2 x f r).dt = s.dt := rfl
@[simp] theorem write2_st (x : Nibble) (f r : Byte) : (s.write2 x f r).st = s.st := rfl
@[simp] theorem write2_fb (x : Nibble) (f r : Byte) : (s.write2 x f r).fb = s.fb := rfl
@[simp] theorem write2_key (x : Nibble) (f r : Byte) : (s.write2 x f r).key = s.key := rfl
@[simp] theorem write2_mode (x : Nibble) (f r : Byte) : (s.write2 x f r).mode = s.mode := rfl
@[simp] theorem write2_mem (x : Nibble) (f r : Byte) : (s.write2 x f r).mem = s.mem := rfl
@[simp] theorem write2_edge (x : Nibble) (f r : Byte) : (s.write2 x f r).edge = s.edge := rfl
@[simp] theorem write2_draws (x : Nibble) (f r : Byte) : (s.write2 x f r).draws = s.draws := rfl
@[simp] theorem write2_byteAt (x : Nibble) (f r : Byte) (c : Nat) : (s.write2 x f r).byteAt c = s.byteAt c := rfl

/-! ### `loadRegsFrom` -/

@[simp] theorem loadRegsFrom_i (a : Nat) (ks : List Nat) : (s.loadRegsFrom a ks).i = s.i := rfl
@[simp] theorem loadRegsFrom_pc (a : Nat) (ks : List Nat) : (s.loadRegsFrom a ks).pc = s.pc := rfl
@[simp] theorem loadRegsFrom_sp (a : Nat) (ks : List Nat) : (s.loadRegsFrom a ks).sp = s.sp := rfl
@[simp] theorem loadRegsFrom_stack (a : Nat) (ks : List Nat) : (s.loadRegsFrom a ks).stack = s.stack := rfl
@[simp] theorem loadRegsFrom_dt (a : Nat) (ks : List Nat) : (s.loadRegsFrom a ks).dt = s.dt := rfl
@[simp] theorem loadRegsFrom_st (a : Nat) (ks : List Nat) : (s.loadRegsFrom a ks).st = s.st := rfl
@[simp] theorem loadRegsFrom_fb (a : Nat) (ks : List Nat) : (s.loadRegsFrom a ks).fb = s.fb := rfl
@[simp] theorem loadRegsFrom_key (a : Nat) (ks : List Nat) : (s.loadRegsFrom a ks).key = s.key := rfl
@[simp] theorem loadRegsFrom_mode (a : Nat) (ks : List Nat) : (s.loadRegsFrom a ks).mode = s.mode := rfl
@[simp] theorem loadRegsFrom_mem (a : Nat) (ks : List Nat) : (s.loadRegsFrom a ks).mem = s.mem := rfl
@[simp] theorem loadRegsFrom_edge (a : Nat) (ks : List Nat) : (s.loadRegsFrom a ks).edge = s.edge := rfl
@[simp] theorem loadRegsFrom_draws (a : Nat) (ks : List Nat) : (s.loadRegsFrom a ks).draws = s.draws := rfl
@[simp] theorem loadRegsFrom_byteAt (a : Nat) (ks : List Nat) (c : Nat) : (s.loadRegsFrom a ks).byteAt c = s.byteAt c := rfl

/-! ### `retire` -/

@[simp] theorem retire_v (p : Word) : (s.retire p).v = s.v := rfl
@[simp] theorem retire_i (p : Word) : (s.retire p).i = s.i := rfl
@[simp] theorem retire_pc (p : Word) : (s.retire p).pc = p := rfl
@[simp] theorem retire_sp (p : Word) : (s.retire p).sp = s.sp := rfl
@[simp] theorem retire_stack (p : Word) : (s.retire p).stack = s.stack := rfl
@[simp] theorem retire_dt (p : Word) : (s.retire p).dt = s.dt := rfl
@[simp] theorem retire_st (p : Word) : (s.retire p).st = s.st := rfl
@[simp] theorem retire_fb (p : Word) : (s.retire p).fb = s.fb := rfl
@[simp] theorem retire_key (p : Word) : (s.retire p).key = s.key := rfl
@[simp] theorem retire_mode (p : Word) : (s.retire p).mode = .normal := rfl
@[simp] theorem retire_mem (p : Word) : (s.retire p).mem = s.mem := rfl
@[simp] theorem retire_edge (p : Word) : (s.retire p).edge = s.edge := rfl
@[simp] theorem retire_draws (p : Word) : (s.retire p).draws = s.draws := rfl
@[simp] theorem retire_reg (p : Word) (q : Nibble) : (s.retire p).reg q = s.reg q := rfl
@[simp] theorem retire_byteAt (p : Word) (c : Nat) : (s.retire p).byteAt c = s.byteAt c := rfl

/-! ### `awaitKey` -/

@[simp] theorem awaitKey_v : (s.awaitKey).v = s.v := rfl
@[simp] theorem awaitKey_i : (s.awaitKey).i = s.i := rfl
@[simp] theorem awaitKey_pc : (s.awaitKey).pc = s.pc := rfl
@[simp] theorem awaitKey_sp : (s.awaitKey).sp = s.sp := rfl
@[simp] theorem awaitKey_stack : (s.awaitKey).stack = s.stack := rfl
@[simp] theorem awaitKey_dt : (s.awaitKey).dt = s.dt := rfl
@[simp] theorem awaitKey_st : (s.awaitKey).st = s.st := rfl
@[simp] theorem awaitKey_fb : (s.awaitKey).fb = s.fb := rfl
@[simp] theorem awaitKey_key : (s.awaitKey).key = s.key := rfl
@[simp] theorem awaitKey_mode : (s.awaitKey).mode = .awaitingKey := rfl
@[simp] theorem awaitKey_mem : (s.awaitKey).mem = s.mem := rfl
@[simp] theorem awaitKey_edge : (s.awaitKey).edge = s.edge := rfl
@[simp] theorem awaitKey_draws : (s.awaitKey).draws = s.draws := rfl
@[simp] theorem awaitKey_reg (q : Nibble) : (s.awaitKey).reg q = s.reg q := rfl
@[simp] theorem awaitKey_byteAt (c : Nat) : (s.awaitKey).byteAt c = s.byteAt c := rfl

/-! ### `clearScreen` -/

@[simp] theorem clearScreen_v : (s.clearScreen).v = s.v := rfl
@[simp] theorem clearScreen_i : (s.clearScreen).i = s.i := rfl
@[simp] theorem clearScreen_pc : (s.clearScreen).pc = s.pc := rfl
@[simp] theorem clearScreen_sp : (s.clearScreen).sp = s.sp := rfl
@[simp] theorem clearScreen_stack : (s.clearScreen).stack = s.stack := rfl
@[simp] theorem clearScreen_dt : (s.clearScreen).dt = s.dt := rfl
@[simp] theorem clearScreen_st : (s.clearScreen).st = s.st := rfl
@[simp] theorem clearScreen_fb : (s.clearScreen).fb = Vector.replicate 32 0 := rfl
@[simp] theorem clearScreen_key : (s.clearScreen).key = s.key := rfl
@[simp] theorem clearScreen_mode : (s.clearScreen).mode = s.mode := rfl
@[simp] theorem clearScreen_mem : (s.clearScreen).mem = s.mem := rfl
@[simp] theorem clearScreen_edge : (s.clearScreen).edge = s.edge := rfl
@[simp] theorem clearScreen_draws : (s.clearScreen).draws = s.draws := rfl
@[simp] theorem clearScreen_reg (q : Nibble) : (s.clearScreen).reg q = s.reg q := rfl
@[simp] theorem clearScreen_byteAt (c : Nat) : (s.clearScreen).byteAt c = s.byteAt c := rfl

/-! ### `setDt` -/

@[simp] theorem setDt_v (b : Byte) : (s.setDt b).v = s.v := rfl
@[simp] theorem setDt_i (b : Byte) : (s.setDt b).i = s.i := rfl
@[simp] theorem setDt_pc (b : Byte) : (s.setDt b).pc = s.pc := rfl
@[simp] theorem setDt_sp (b : Byte) : (s.setDt b).sp = s.sp := rfl
@[simp] theorem setDt_stack (b : Byte) : (s.setDt b).stack = s.stack := rfl
@[simp] theorem setDt_dt (b : Byte) : (s.setDt b).dt = b := rfl
@[simp] theorem setDt_st (b : Byte) : (s.setDt b).st = s.st := rfl
@[simp] theorem setDt_fb (b : Byte) : (s.setDt b).fb = s.fb := rfl
@[simp] theorem setDt_key (b : Byte) : (s.setDt b).key = s.key := rfl
@[simp] theorem setDt_mode (b : Byte) : (s.setDt b).mode = s.mode := rfl
@[simp] theorem setDt_mem (b : Byte) : (s.setDt b).mem = s.mem := rfl
@[simp] theorem setDt_edge (b : Byte) : (s.setDt b).edge = s.edge := rfl
@[simp] theorem setDt_draws (b : Byte) : (s.setDt b).draws = s.draws := rfl
@[simp] theorem setDt_reg (b : Byte) (q : Nibble) : (s.setDt b).reg q = s.reg q := rfl
@[simp] theorem setDt_byteAt (b : Byte) (c : Nat) : (s.setDt b).byteAt c = s.byteAt c := rfl

/-! ### `setSt` -/

@[simp] theorem setSt_v (b : Byte) : (s.setSt b).v = s.v := rfl
@[simp] theorem setSt_i (b : Byte) : (s.setSt b).i = s.i := rfl
@[simp] theorem setSt_pc (b : Byte) : (s.setSt b).pc = s.pc := rfl
@[simp] theorem setSt_sp (b : Byte) : (s.setSt b).sp = s.sp := rfl
@[simp] theorem setSt_stack (b : Byte) : (s.setSt b).stack = s.stack := rfl
@[simp] theorem setSt_dt (b : Byte) : (s.setSt b).dt = s.dt := rfl
@[simp] theorem setSt_st (b : Byte) : (s.setSt b).st = b := rfl
@[simp] theorem setSt_fb (b : Byte) : (s.setSt b).fb = s.fb := rfl
@[simp] theorem setSt_key (b : Byte) : (s.setSt b).key = s.key := rfl
@[simp] theorem setSt_mode (b : Byte) : (s.setSt b).mode = s.mode := rfl
@[simp] theorem setSt_mem (b : Byte) : (s.setSt b).mem = s.mem := rfl
@[simp] theorem setSt_edge (b : Byte) : (s.setSt b).edge = s.edge := rfl
@[simp] theorem setSt_draws (b : Byte) : (s.setSt b).draws = s.draws := rfl
@[simp] theorem setSt_reg (b : Byte) (q : Nibble) : (s.setSt b).reg q = s.reg q := rfl
@[simp] theorem setSt_byteAt (b : Byte) (c : Nat) : (s.setSt b).byteAt c = s.byteAt c := rfl

/-! ### `consumeDraw` -/

@[simp] theorem consumeDraw_v : (s.consumeDraw).v = s.v := rfl
@[simp] theorem consumeDraw_i : (s.consumeDraw).i = s.i := rfl
@[simp] theorem consumeDraw_pc : (s.consumeDraw).pc = s.pc := rfl
@[simp] theorem consumeDraw_sp : (s.consumeDraw).sp = s.sp := rfl
@[simp] theorem consumeDraw_stack : (s.consumeDraw).stack = s.stack := rfl
@[simp] theorem consumeDraw_dt : (s.consumeDraw).dt = s.dt := rfl
@[simp] theorem consumeDraw_st : (s.consumeDraw).st = s.st := rfl
@[simp] theorem consumeDraw_fb : (s.consumeDraw).fb = s.fb := rfl
@[simp] theorem consumeDraw_key : (s.consumeDraw).key = s.key := rfl
@[simp] theorem consumeDraw_mode : (s.consumeDraw).mode = s.mode := rfl
@[simp] theorem consumeDraw_mem : (s.consumeDraw).mem = s.mem := rfl
@[simp] theorem consumeDraw_edge : (s.consumeDraw).edge = s.edge := rfl
@[simp] theorem consumeDraw_draws : (s.consumeDraw).draws = s.draws + 1 := rfl
@[simp] theorem consumeDraw_reg (q : Nibble) : (s.consumeDraw).reg q = s.reg q := rfl
@[simp] theorem consumeDraw_byteAt (c : Nat) : (s.consumeDraw).byteAt c = s.byteAt c := rfl

/-! ### `commitDrawing` -/

@[simp] theorem commitDrawing_i (d : Drawing) : (s.commitDrawing d).i = s.i := rfl
@[simp] theorem commitDrawing_pc (d : Drawing) : (s.commitDrawing d).pc = s.pc := rfl
@[simp] theorem commitDrawing_sp (d : Drawing) : (s.commitDrawing d).sp = s.sp := rfl
@[simp] theorem commitDrawing_stack (d : Drawing) : (s.commitDrawing d).stack = s.stack := rfl
@[simp] theorem commitDrawing_dt (d : Drawing) : (s.commitDrawing d).dt = s.dt := rfl
@[simp] theorem commitDrawing_st (d : Drawing) : (s.commitDrawing d).st = s.st := rfl
@[simp] theorem commitDrawing_fb (d : Drawing) : (s.commitDrawing d).fb = d.fb := rfl
@[simp] theorem commitDrawing_key (d : Drawing) : (s.commitDrawing d).key = s.key := rfl
@[simp] theorem commitDrawing_mode (d : Drawing) : (s.commitDrawing d).mode = s.mode := rfl
@[simp] theorem commitDrawing_mem (d : Drawing) : (s.commitDrawing d).mem = s.mem := rfl
@[simp] theorem commitDrawing_edge (d : Drawing) : (s.commitDrawing d).edge = s.edge := rfl
@[simp] theorem commitDrawing_draws (d : Drawing) : (s.commitDrawing d).draws = s.draws := rfl
@[simp] theorem commitDrawing_byteAt (d : Drawing) (c : Nat) : (s.commitDrawing d).byteAt c = s.byteAt c := rfl

/-! ### `setKey` -/

@[simp] theorem setKey_v (k : Nibble) (pressed : Bool) : (s.setKey k pressed).v = s.v := rfl
@[simp] theorem setKey_i (k : Nibble) (pressed : Bool) : (s.setKey k pressed).i = s.i := rfl
@[simp] theorem setKey_pc (k : Nibble) (pressed : Bool) : (s.setKey k pressed).pc = s.pc := rfl
@[simp] theorem setKey_sp (k : Nibble) (pressed : Bool) : (s.setKey k pressed).sp = s.sp := rfl
@[simp] theorem setKey_stack (k : Nibble) (pressed : Bool) : (s.setKey k pressed).stack = s.stack := rfl
@[simp] theorem setKey_dt (k : Nibble) (pressed : Bool) : (s.setKey k pressed).dt = s.dt := rfl
@[simp] theorem setKey_st (k : Nibble) (pressed : Bool) : (s.setKey k pressed).st = s.st := rfl
@[simp] theorem setKey_fb (k : Nibble) (pressed : Bool) : (s.setKey k pressed).fb = s.fb := rfl
@[simp] theorem setKey_mode (k : Nibble) (pressed : Bool) : (s.setKey k pressed).mode = s.mode := rfl
@[simp] theorem setKey_mem (k : Nibble) (pressed : Bool) : (s.setKey k pressed).mem = s.mem := rfl
@[simp] theorem setKey_edge (k : Nibble) (pressed : Bool) : (s.setKey k pressed).edge = s.edge := rfl
@[simp] theorem setKey_draws (k : Nibble) (pressed : Bool) : (s.setKey k pressed).draws = s.draws := rfl
@[simp] theorem setKey_reg (k : Nibble) (pressed : Bool) (q : Nibble) : (s.setKey k pressed).reg q = s.reg q := rfl
@[simp] theorem setKey_byteAt (k : Nibble) (pressed : Bool) (c : Nat) : (s.setKey k pressed).byteAt c = s.byteAt c := rfl

/-! ### `setAllKeys` -/

@[simp] theorem setAllKeys_v (keys : BitVec 16) : (s.setAllKeys keys).v = s.v := rfl
@[simp] theorem setAllKeys_i (keys : BitVec 16) : (s.setAllKeys keys).i = s.i := rfl
@[simp] theorem setAllKeys_pc (keys : BitVec 16) : (s.setAllKeys keys).pc = s.pc := rfl
@[simp] theorem setAllKeys_sp (keys : BitVec 16) : (s.setAllKeys keys).sp = s.sp := rfl
@[simp] theorem setAllKeys_stack (keys : BitVec 16) : (s.setAllKeys keys).stack = s.stack := rfl
@[simp] theorem setAllKeys_dt (keys : BitVec 16) : (s.setAllKeys keys).dt = s.dt := rfl
@[simp] theorem setAllKeys_st (keys : BitVec 16) : (s.setAllKeys keys).st = s.st := rfl
@[simp] theorem setAllKeys_fb (keys : BitVec 16) : (s.setAllKeys keys).fb = s.fb := rfl
@[simp] theorem setAllKeys_key (keys : BitVec 16) : (s.setAllKeys keys).key = keys := rfl
@[simp] theorem setAllKeys_mode (keys : BitVec 16) : (s.setAllKeys keys).mode = s.mode := rfl
@[simp] theorem setAllKeys_mem (keys : BitVec 16) : (s.setAllKeys keys).mem = s.mem := rfl
@[simp] theorem setAllKeys_edge (keys : BitVec 16) : (s.setAllKeys keys).edge = s.edge := rfl
@[simp] theorem setAllKeys_draws (keys : BitVec 16) : (s.setAllKeys keys).draws = s.draws := rfl
@[simp] theorem setAllKeys_reg (keys : BitVec 16) (q : Nibble) : (s.setAllKeys keys).reg q = s.reg q := rfl
@[simp] theorem setAllKeys_byteAt (keys : BitVec 16) (c : Nat) : (s.setAllKeys keys).byteAt c = s.byteAt c := rfl

@[simp] theorem push_sp_val (w : Word) (room : s.sp.val < 16) : (s.push w room).sp.val = s.sp.val + 1 := rfl
@[simp] theorem drop_sp_val : s.drop.sp.val = s.sp.val - 1 := rfl

end Sys2Proof.Machine.State

namespace Sys2Proof.Machine

variable (s : State)

/-! ### `tick` -/

@[simp] theorem tick_v : (tick s).v = s.v := rfl
@[simp] theorem tick_i : (tick s).i = s.i := rfl
@[simp] theorem tick_pc : (tick s).pc = s.pc := rfl
@[simp] theorem tick_sp : (tick s).sp = s.sp := rfl
@[simp] theorem tick_stack : (tick s).stack = s.stack := rfl
@[simp] theorem tick_dt : (tick s).dt = tickTimer s.dt := rfl
@[simp] theorem tick_st : (tick s).st = tickTimer s.st := rfl
@[simp] theorem tick_fb : (tick s).fb = s.fb := rfl
@[simp] theorem tick_key : (tick s).key = s.key := rfl
@[simp] theorem tick_mode : (tick s).mode = s.mode := rfl
@[simp] theorem tick_mem : (tick s).mem = s.mem := rfl
@[simp] theorem tick_edge : (tick s).edge = (s.st == 1) := rfl
@[simp] theorem tick_draws : (tick s).draws = s.draws := rfl
@[simp] theorem tick_reg (q : Nibble) : (tick s).reg q = s.reg q := rfl
@[simp] theorem tick_byteAt (c : Nat) : (tick s).byteAt c = s.byteAt c := rfl

end Sys2Proof.Machine
end

