-- ==== Sys2Proof/Laws/Ops.lean ====
section
/-! SUPPORT. What each shared operation can do, said once: registers, memory through the state, the call stack, ending
an instruction, raising an error, the fetch and the step. -/

namespace Sys2Proof.Machine

/-! ### Registers -/

@[simp] theorem State.reg_setReg (s : State) (r q : Nibble) (b : Byte) :
    (s.setReg r b).reg q = if q = r then b else s.reg q := by
  simp only [State.reg, State.setReg, Vector.getElem_set, BitVec.toNat_inj, eq_comm]

/-- `write2` (R133): the result at `x`, the flag at 15 when `x` is another register. -/
@[simp] theorem State.reg_write2 (s : State) (x q : Nibble) (f r : Byte) :
    (s.write2 x f r).reg q = if q = x then r else if q = flagReg then f else s.reg q := by
  simp [State.write2]

/-- The general registers of a state with another register file. -/
theorem State.reg_ext {s t : State} (h : ∀ r, t.reg r = s.reg r) : t.v = s.v := by
  apply Vector.ext
  intro k hk
  have := h (BitVec.ofNat 4 k)
  simpa [State.reg, Nat.mod_eq_of_lt hk] using this

theorem getElem_loadFile (m : List Host.Cell) (a : Nat) (ks : List Nat) (hks : ∀ k ∈ ks, k < 16) (v : Vector Byte 16)
    (q : Nat) (hq : q < 16) : (loadFile m a ks v)[q] = if q ∈ ks then Mem.read m (a + q) else v[q] := by
  induction ks generalizing v with
  | nil => simp [loadFile]
  | cons k ks ih =>
    have hk : k < 16 := hks k (by simp)
    rw [loadFile, ih fun j hj => hks j (by simp [hj])]
    by_cases h1 : q ∈ ks
    · simp [h1]
    · by_cases h2 : k = q
      · subst h2
        simp [h1, Nat.mod_eq_of_lt hk]
      · have h3 : ¬ q = k := fun h => h2 h.symm
        simp [h1, h2, h3, Nat.mod_eq_of_lt hk]

/-- After the block load every register named in the list holds its byte, and no other register changes (R165). -/
theorem State.reg_loadRegsFrom (s : State) (a : Nat) (ks : List Nat) (hks : ∀ k ∈ ks, k < 16) (q : Nibble) :
    (s.loadRegsFrom a ks).reg q = if q.toNat ∈ ks then s.byteAt (a + q.toNat) else s.reg q :=
  getElem_loadFile s.mem a ks hks s.v q.toNat q.isLt

/-- A drawing put into the state writes the flag register and no other (R181). -/
@[simp] theorem State.reg_commitDrawing (s : State) (d : Drawing) (q : Nibble) :
    (s.commitDrawing d).reg q = if q = flagReg then flagByte d.hit else s.reg q :=
  State.reg_setReg { s with fb := d.fb } flagReg q (flagByte d.hit)

/-! ### Memory -/

/-- What a store leaves at each address: the bytes stored, and everything else as it was. -/
@[simp] theorem State.byteAt_storeBytes (s : State) (a : Nat) (ws : List Byte) (b : Nat) :
    (s.storeBytes a ws).byteAt b =
      if a ≤ b ∧ b < a + ws.length then ws.getD (b - a) 0 else s.byteAt b :=
  Mem.read_writeList s.mem a ws b

theorem inRange_iff (a n : Nat) : inRange a n = true ↔ n = 0 ∨ a + n ≤ 4096 := by
  simp [inRange]

/-! ### Ending an instruction, raising an error -/

@[simp] theorem finish_next_iff (s t : State) (p : Word) :
    finish s p = .next t ↔ t = s.retire p := by
  simp [finish, eq_comm]

/-- Every completing instruction answers its writes, then the new `pc` and `MODE` (R94). -/
@[simp] theorem advance_next_iff (s t : State) : advance s = .next t ↔ t = s.retire (s.pc + 2) :=
  finish_next_iff s t _

@[simp] theorem skipIf_next_iff (c : Bool) (s t : State) :
    skipIf c s = .next t ↔ t = s.retire (if c then s.pc + 4 else s.pc + 2) :=
  finish_next_iff s t _

@[simp] theorem await_next_iff (s t : State) : await s = .next t ↔ t = s.awaitKey := by
  simp [await, eq_comm]

@[simp] theorem finish_ne_fault (s : State) (p : Word) (e : Fault) : finish s p ≠ .fault e := by
  simp [finish]

@[simp] theorem finish_ne_refused (s : State) (p : Word) (r : Refusal) : finish s p ≠ .refused r := by
  simp [finish]

/-- Where every address exists the range check lets the body run (R53). -/
theorem guardRange_of_inRange {a n : Nat} (h : inRange a n = true) (body : Result) : guardRange a n body = body :=
  if_pos h

/-- Where some address does not exist nothing of the body happens (R53, R211). -/
theorem guardRange_of_not_inRange {a n : Nat} (h : ¬ inRange a n = true) (body : Result) :
    guardRange a n body = raise .outOfBoundsAccess :=
  if_neg h

/-- An instruction that answers a next state passed its range check (R53, R211). -/
theorem guardRange_next_iff (a n : Nat) (body : Result) (t : State) :
    guardRange a n body = .next t ↔ inRange a n = true ∧ body = .next t := by
  unfold guardRange
  cases inRange a n <;> simp [raise]

/-- A guarded body that cannot fail faults exactly when the range check fails (R211). -/
theorem guardRange_fault_iff (a n : Nat) (s : State) (p : Word) (e : Fault) :
    guardRange a n (finish s p) = .fault e ↔ inRange a n = false ∧ e = .outOfBoundsAccess := by
  unfold guardRange
  cases inRange a n
  · simp [raise, eq_comm]
  · simp [finish]

/-! ### The cycle -/

/-- The fetch gives a word exactly when `pc` is at most 4094 (R91). -/
theorem fetch_eq_some_iff (s : State) (op : Word) :
    fetch s = some op ↔
      s.pc.toNat ≤ 4094 ∧ wordOfBytes (s.byteAt s.pc.toNat) (s.byteAt (s.pc.toNat + 1)) = op := by
  unfold fetch
  split <;> simp_all

theorem fetch_eq_none_iff (s : State) : fetch s = none ↔ 4094 < s.pc.toNat := by
  simp [fetch]

@[simp] theorem endCycle_next_iff (o : Result) (u : State) :
    endCycle o = .next u ↔ ∃ t, o = .next t ∧ u = tick t := by
  cases o <;> simp [endCycle, eq_comm]

@[simp] theorem endCycle_fault_iff (o : Result) (e : Fault) : endCycle o = .fault e ↔ o = .fault e := by
  cases o <;> simp [endCycle]

@[simp] theorem endCycle_refused_iff (o : Result) (r : Refusal) : endCycle o = .refused r ↔ o = .refused r := by
  cases o <;> simp [endCycle]

/-- Everything a step that answers a next state did (R90). -/
theorem step_next_iff (s u : State) :
    step s = .next u ↔
      ∃ op i t, fetch s = some op ∧ decode op = .ok i ∧ exec i s = .next t ∧ u = tick t := by
  unfold step
  cases hf : fetch s with
  | none => simp [raise]
  | some op =>
    cases hd : decode op with
    | error r => simp [raise, hd]
    | ok i => simp [hd]

/-- Every way a step can report an error (R215). -/
theorem step_fault_iff (s : State) (e : Fault) :
    step s = .fault e ↔
      (fetch s = none ∧ e = .outOfBoundsAccess) ∨
      (∃ op r, fetch s = some op ∧ decode op = .error r ∧ e = .unknownOpcode op) ∨
      (∃ op i, fetch s = some op ∧ decode op = .ok i ∧ exec i s = .fault e) := by
  unfold step
  cases hf : fetch s with
  | none => simp [raise, eq_comm]
  | some op =>
    cases hd : decode op with
    | error r => simp [raise, hd, eq_comm]
    | ok i => simp [hd]

/-- The tick of a timer: down by one, stopping at 0 (R96). -/
theorem toNat_tickTimer (t : Byte) : (tickTimer t).toNat = t.toNat - 1 := by
  unfold tickTimer
  split
  · rename_i h
    simp [h]
  · rename_i h
    have h0 : t.toNat ≠ 0 := fun h' => h (BitVec.eq_of_toNat_eq h')
    have := t.isLt
    rw [BitVec.toNat_sub]
    simp
    omega

end Sys2Proof.Machine
end

