-- ==== Sys2Proof/Laws/Exec.lean ====
section
/-! SUPPORT. The next state of each instruction, in the named updates: what `exec` can answer, said once per instruction,
so that no proof unfolds a meaning. Each lemma is an equivalence: it says when the instruction completes, and with what. -/

namespace Sys2Proof.Machine

variable (s t : State)

/-! ### Instructions that always complete -/

@[simp] theorem exec_cls_next_iff :
    exec .cls s = .next t ↔ t = s.clearScreen.retire (s.pc + 2) :=
  advance_next_iff _ t

@[simp] theorem exec_jp_next_iff (nnn : Addr) :
    exec (.jp nnn) s = .next t ↔ t = s.retire (addrToPc nnn) :=
  finish_next_iff s t _

@[simp] theorem exec_jpV0_next_iff (nnn : Addr) :
    exec (.jpV0 nnn) s = .next t ↔ t = s.retire (addrToPc nnn + byteToWord (s.reg 0)) :=
  finish_next_iff s t _

@[simp] theorem exec_seImm_next_iff (x : Nibble) (nn : Byte) :
    exec (.seImm x nn) s = .next t ↔ t = s.retire (if s.reg x == nn then s.pc + 4 else s.pc + 2) :=
  skipIf_next_iff _ s t

@[simp] theorem exec_sneImm_next_iff (x : Nibble) (nn : Byte) :
    exec (.sneImm x nn) s = .next t ↔ t = s.retire (if s.reg x != nn then s.pc + 4 else s.pc + 2) :=
  skipIf_next_iff _ s t

@[simp] theorem exec_seReg_next_iff (x : Nibble) (y : Nibble) :
    exec (.seReg x y) s = .next t ↔ t = s.retire (if s.reg x == s.reg y then s.pc + 4 else s.pc + 2) :=
  skipIf_next_iff _ s t

@[simp] theorem exec_sneReg_next_iff (x : Nibble) (y : Nibble) :
    exec (.sneReg x y) s = .next t ↔ t = s.retire (if s.reg x != s.reg y then s.pc + 4 else s.pc + 2) :=
  skipIf_next_iff _ s t

@[simp] theorem exec_skp_next_iff (x : Nibble) :
    exec (.skp x) s = .next t ↔ t = s.retire (if s.keyDown (keyNumber (s.reg x)) then s.pc + 4 else s.pc + 2) :=
  skipIf_next_iff _ s t

@[simp] theorem exec_sknp_next_iff (x : Nibble) :
    exec (.sknp x) s = .next t ↔ t = s.retire (if !s.keyDown (keyNumber (s.reg x)) then s.pc + 4 else s.pc + 2) :=
  skipIf_next_iff _ s t

@[simp] theorem exec_ldImm_next_iff (x : Nibble) (nn : Byte) :
    exec (.ldImm x nn) s = .next t ↔ t = (s.setReg x nn).retire (s.pc + 2) :=
  advance_next_iff _ t

@[simp] theorem exec_addImm_next_iff (x : Nibble) (nn : Byte) :
    exec (.addImm x nn) s = .next t ↔ t = (s.setReg x (BitVec.ofNat 8 (((s.reg x).toNat + nn.toNat) % 256))).retire (s.pc + 2) :=
  advance_next_iff _ t

@[simp] theorem exec_ldReg_next_iff (x : Nibble) (y : Nibble) :
    exec (.ldReg x y) s = .next t ↔ t = (s.setReg x (s.reg y)).retire (s.pc + 2) :=
  advance_next_iff _ t

@[simp] theorem exec_orReg_next_iff (x : Nibble) (y : Nibble) :
    exec (.orReg x y) s = .next t ↔ t = (s.setReg x (s.reg x ||| s.reg y)).retire (s.pc + 2) :=
  advance_next_iff _ t

@[simp] theorem exec_andReg_next_iff (x : Nibble) (y : Nibble) :
    exec (.andReg x y) s = .next t ↔ t = (s.setReg x (s.reg x &&& s.reg y)).retire (s.pc + 2) :=
  advance_next_iff _ t

@[simp] theorem exec_xorReg_next_iff (x : Nibble) (y : Nibble) :
    exec (.xorReg x y) s = .next t ↔ t = (s.setReg x (s.reg x ^^^ s.reg y)).retire (s.pc + 2) :=
  advance_next_iff _ t

@[simp] theorem exec_addReg_next_iff (x : Nibble) (y : Nibble) :
    exec (.addReg x y) s = .next t ↔ t = (s.write2 x (carryFlag (s.reg x) (s.reg y)) (sumByte (s.reg x) (s.reg y))).retire (s.pc + 2) :=
  advance_next_iff _ t

@[simp] theorem exec_sub_next_iff (x : Nibble) (y : Nibble) :
    exec (.sub x y) s = .next t ↔ t = (s.write2 x (noBorrowFlag (s.reg x) (s.reg y)) (differenceByte (s.reg x) (s.reg y))).retire (s.pc + 2) :=
  advance_next_iff _ t

@[simp] theorem exec_shr_next_iff (x : Nibble) (y : Nibble) :
    exec (.shr x y) s = .next t ↔ t = (s.write2 x (lowBitFlag (s.reg x)) (BitVec.ofNat 8 ((s.reg x).toNat / 2))).retire (s.pc + 2) :=
  advance_next_iff _ t

@[simp] theorem exec_subn_next_iff (x : Nibble) (y : Nibble) :
    exec (.subn x y) s = .next t ↔ t = (s.write2 x (noBorrowFlag (s.reg y) (s.reg x)) (differenceByte (s.reg y) (s.reg x))).retire (s.pc + 2) :=
  advance_next_iff _ t

@[simp] theorem exec_shl_next_iff (x : Nibble) (y : Nibble) :
    exec (.shl x y) s = .next t ↔ t = (s.write2 x (highBitFlag (s.reg x)) (BitVec.ofNat 8 ((s.reg x).toNat * 2 % 256))).retire (s.pc + 2) :=
  advance_next_iff _ t

@[simp] theorem exec_rnd_next_iff (x : Nibble) (nn : Byte) :
    exec (.rnd x nn) s = .next t ↔ t = (s.consumeDraw.setReg x (s.draw &&& nn)).retire (s.pc + 2) :=
  advance_next_iff _ t

@[simp] theorem exec_ldI_next_iff (nnn : Addr) :
    exec (.ldI nnn) s = .next t ↔ t = (s.setI nnn).retire (s.pc + 2) :=
  advance_next_iff _ t

@[simp] theorem exec_addI_next_iff (x : Nibble) :
    exec (.addI x) s = .next t ↔ t = (s.setI (addrPlus s.i (s.reg x))).retire (s.pc + 2) :=
  advance_next_iff _ t

@[simp] theorem exec_ldFont_next_iff (x : Nibble) :
    exec (.ldFont x) s = .next t ↔ t = (s.setI (glyphAddr (s.reg x))).retire (s.pc + 2) :=
  advance_next_iff _ t

@[simp] theorem exec_ldVxDt_next_iff (x : Nibble) :
    exec (.ldVxDt x) s = .next t ↔ t = (s.setReg x s.dt).retire (s.pc + 2) :=
  advance_next_iff _ t

@[simp] theorem exec_ldDtVx_next_iff (x : Nibble) :
    exec (.ldDtVx x) s = .next t ↔ t = (s.setDt (s.reg x)).retire (s.pc + 2) :=
  advance_next_iff _ t

@[simp] theorem exec_ldStVx_next_iff (x : Nibble) :
    exec (.ldStVx x) s = .next t ↔ t = (s.setSt (s.reg x)).retire (s.pc + 2) :=
  advance_next_iff _ t

/-! ### Instructions that check their addresses first (R211) -/

@[simp] theorem exec_ldBcd_next_iff (x : Nibble) :
    exec (.ldBcd x) s = .next t ↔ inRange (s.effAddr 0) 3 = true ∧
      t = (s.storeBytes (s.effAddr 0) (bcdDigits (s.reg x))).retire (s.pc + 2) := by
  simp only [exec, execLdBcd, guardRange_next_iff, advance_next_iff, State.storeBytes_pc]

@[simp] theorem exec_stRegs_next_iff (x : Nibble) :
    exec (.stRegs x) s = .next t ↔ inRange (s.effAddr 0) (x.toNat + 1) = true ∧
      t = (s.storeBytes (s.effAddr 0) (s.lowRegs x)).retire (s.pc + 2) := by
  simp only [exec, execStRegs, guardRange_next_iff, advance_next_iff, State.storeBytes_pc]

@[simp] theorem exec_ldRegs_next_iff (x : Nibble) :
    exec (.ldRegs x) s = .next t ↔ inRange (s.effAddr 0) (x.toNat + 1) = true ∧
      t = (s.loadRegsFrom (s.effAddr 0) (List.range (x.toNat + 1))).retire (s.pc + 2) := by
  simp only [exec, execLdRegs, guardRange_next_iff, advance_next_iff, State.loadRegsFrom_pc]

@[simp] theorem exec_drw_next_iff (x : Nibble) (y : Nibble) (n : Nibble) :
    exec (.drw x y n) s = .next t ↔ inRange (s.effAddr 0) n.toNat = true ∧
      t = (s.commitDrawing (s.drawn x y n)).retire (s.pc + 2) := by
  simp only [exec, execDrw, guardRange_next_iff, advance_next_iff, State.commitDrawing_pc]

/-! ### The stack instructions (R110, R112) and the key wait (R192) -/

@[simp] theorem exec_ret_next_iff :
    exec .ret s = .next t ↔ ∃ live : 0 < s.sp.val, t = s.drop.retire (s.top live + 2) := by
  simp only [exec, execRet]
  split
  · rename_i live
    simp [live]
  · rename_i empty
    simp [raise, empty]

@[simp] theorem exec_call_next_iff (nnn : Addr) :
    exec (.call nnn) s = .next t ↔ ∃ room : s.sp.val < 16, t = (s.push s.pc room).retire (addrToPc nnn) := by
  simp only [exec, execCall]
  split
  · rename_i room
    simp [room]
  · rename_i full
    simp [raise, full]

@[simp] theorem exec_ldVxKey_next_iff (x : Nibble) :
    exec (.ldVxKey x) s = .next t ↔
      (∃ k, s.leastKey = some k ∧ t = (s.setReg x (BitVec.ofNat 8 k)).retire (s.pc + 2)) ∨
      (s.leastKey = none ∧ t = s.awaitKey) := by
  simp only [exec, execLdVxKey]
  cases s.leastKey <;> simp

/-- No key is pressed exactly when the latch shows none (R192). -/
theorem State.leastKey_eq_none_iff : s.leastKey = none ↔ ∀ k, s.keyDown k = false := by
  unfold State.leastKey State.keyDown
  rw [List.find?_eq_none]
  constructor
  · intro h k
    simpa using h k.toNat (List.mem_range.mpr k.isLt)
  · intro h k hk
    have hk' := List.mem_range.mp hk
    simpa [Nat.mod_eq_of_lt hk'] using h (BitVec.ofNat 4 k)

end Sys2Proof.Machine
end

