-- ==== Sys2Proof/Laws/HostPorts.lean ====
section
/-! SUPPORT. The host's side: what a run of interactions did, and when the next instruction is a jump to itself. -/

namespace Sys2Proof.Machine

/-- A self-jump, in terms of what the cycle fetches and decodes (R255 (c)). -/
theorem State.atSelfJump_iff (s : State) :
    s.atSelfJump = true ↔
      ∃ op nnn, fetch s = some op ∧ decode op = .ok (.jp nnn) ∧ addrToPc nnn = s.pc := by
  unfold State.atSelfJump
  cases fetch s with
  | none => simp
  | some op => cases hd : decode op with
    | error r => simp [hd]
    | ok i => cases i <;> simp [hd]

/-- A run of no interactions leaves the machine as it is. -/
@[simp] theorem run_nil (font : Vector Byte 80) (σ : Session) : run font σ [] = .ok (σ, []) := rfl

/-- A run is its first interaction and then the rest (R245). -/
theorem run_cons_ok_iff (font : Vector Byte 80) (σ υ : Session) (a : Action) (rest : List Action)
    (answers : List Answer) :
    run font σ (a :: rest) = .ok (υ, answers) ↔
      ∃ τ ans more, interact font σ a = .ok (τ, ans) ∧ run font τ rest = .ok (υ, more) ∧ answers = ans :: more := by
  rw [run]
  cases interact font σ a with
  | error r => simp
  | ok p =>
    obtain ⟨τ, ans⟩ := p
    simp only [Except.ok.injEq, Prod.mk.injEq, and_assoc, exists_and_left, exists_eq_left']
    cases run font τ rest with
    | error r => simp
    | ok q =>
      obtain ⟨υ', more⟩ := q
      simp [and_assoc, eq_comm]

end Sys2Proof.Machine
end

