-- ==== Sys2Proof/Laws/PerInstr.lean ====
section
/-! SUPPORT. Laws of the instruction set as syntax, one lemma per instruction. Family `EncodedWord`: the encoder's word
of an instruction is selected by the instruction's own row of the opcode map (R74, R82). -/

namespace Sys2Proof.Laws.EncodedWord

/-- The instruction's row is a row of the opcode map and selects the instruction's word. -/
def Statement (i : Instr) : Prop := i.row ∈ opcodeMap ∧ i.row.selects (encode i) = true

theorem selects_xy {bits : Nat} (x y : Nibble) (h : bits + 4080 < 65536) (h1 : bits / 256 % 16 = 0)
    (h2 : bits / 16 % 16 = 0) : Row.selects ⟨0xF00F, BitVec.ofNat 16 bits⟩ (wordXY bits x y) = true := by
  have := x.isLt
  have := y.isLt
  rw [Row.selects, beq_iff_eq]
  apply BitVec.eq_of_toNat_eq
  rw [show (0xF00F : Word) = 0xF00F#16 from rfl, toNat_mask_F00F, toNat_wordXY x y h]
  simp
  omega

theorem selects_xi {bits : Nat} (x : Nibble) (nn : Byte) (h : bits + 4096 ≤ 65536) (h1 : bits % 4096 = 0) :
    Row.selects ⟨0xF000, BitVec.ofNat 16 bits⟩ (wordXI bits x nn) = true := by
  have := x.isLt
  have := nn.isLt
  rw [Row.selects, beq_iff_eq]
  apply BitVec.eq_of_toNat_eq
  rw [show (0xF000 : Word) = 0xF000#16 from rfl, toNat_mask_F000, toNat_wordXI x nn h]
  simp
  omega

theorem selects_a {bits : Nat} (nnn : Addr) (h : bits + 4096 ≤ 65536) (h1 : bits % 4096 = 0) :
    Row.selects ⟨0xF000, BitVec.ofNat 16 bits⟩ (wordA bits nnn) = true := by
  have := nnn.isLt
  rw [Row.selects, beq_iff_eq]
  apply BitVec.eq_of_toNat_eq
  rw [show (0xF000 : Word) = 0xF000#16 from rfl, toNat_mask_F000, toNat_wordA nnn h]
  simp
  omega

theorem selects_xs {bits : Nat} (x : Nibble) (h : bits + 3840 < 65536) (h1 : bits / 256 % 16 = 0) :
    Row.selects ⟨0xF0FF, BitVec.ofNat 16 bits⟩ (wordXS bits x) = true := by
  have := x.isLt
  rw [Row.selects, beq_iff_eq]
  apply BitVec.eq_of_toNat_eq
  rw [show (0xF0FF : Word) = 0xF0FF#16 from rfl, toNat_mask_F0FF, toNat_wordXS x h]
  simp
  omega

/-- The row count of DXYN does not disturb the family nibble. -/
theorem selects_drw (x y n : Nibble) : Row.selects ⟨0xF000, 0xD000⟩ (wordXY (0xD000 + n.toNat) x y) = true := by
  have := x.isLt
  have := y.isLt
  have := n.isLt
  rw [Row.selects, beq_iff_eq]
  apply BitVec.eq_of_toNat_eq
  rw [show (0xF000 : Word) = 0xF000#16 from rfl, toNat_mask_F000, toNat_wordXY x y (by omega)]
  simp
  omega

/-! ### One lemma per instruction -/

theorem cls : Statement .cls :=
  ⟨by simp [Instr.row, opcodeMap], by decide⟩

theorem ret : Statement .ret :=
  ⟨by simp [Instr.row, opcodeMap], by decide⟩

theorem jp (nnn : Addr) : Statement (.jp nnn) :=
  ⟨by simp [Instr.row, opcodeMap], selects_a (bits := 0x1000) nnn (by decide) (by decide)⟩

theorem call (nnn : Addr) : Statement (.call nnn) :=
  ⟨by simp [Instr.row, opcodeMap], selects_a (bits := 0x2000) nnn (by decide) (by decide)⟩

theorem seImm (x : Nibble) (nn : Byte) : Statement (.seImm x nn) :=
  ⟨by simp [Instr.row, opcodeMap], selects_xi (bits := 0x3000) x nn (by decide) (by decide)⟩

theorem sneImm (x : Nibble) (nn : Byte) : Statement (.sneImm x nn) :=
  ⟨by simp [Instr.row, opcodeMap], selects_xi (bits := 0x4000) x nn (by decide) (by decide)⟩

theorem seReg (x y : Nibble) : Statement (.seReg x y) :=
  ⟨by simp [Instr.row, opcodeMap], selects_xy (bits := 0x5000) x y (by decide) (by decide) (by decide)⟩

theorem ldImm (x : Nibble) (nn : Byte) : Statement (.ldImm x nn) :=
  ⟨by simp [Instr.row, opcodeMap], selects_xi (bits := 0x6000) x nn (by decide) (by decide)⟩

theorem addImm (x : Nibble) (nn : Byte) : Statement (.addImm x nn) :=
  ⟨by simp [Instr.row, opcodeMap], selects_xi (bits := 0x7000) x nn (by decide) (by decide)⟩

theorem ldReg (x y : Nibble) : Statement (.ldReg x y) :=
  ⟨by simp [Instr.row, opcodeMap], selects_xy (bits := 0x8000) x y (by decide) (by decide) (by decide)⟩

theorem orReg (x y : Nibble) : Statement (.orReg x y) :=
  ⟨by simp [Instr.row, opcodeMap], selects_xy (bits := 0x8001) x y (by decide) (by decide) (by decide)⟩

theorem andReg (x y : Nibble) : Statement (.andReg x y) :=
  ⟨by simp [Instr.row, opcodeMap], selects_xy (bits := 0x8002) x y (by decide) (by decide) (by decide)⟩

theorem xorReg (x y : Nibble) : Statement (.xorReg x y) :=
  ⟨by simp [Instr.row, opcodeMap], selects_xy (bits := 0x8003) x y (by decide) (by decide) (by decide)⟩

theorem addReg (x y : Nibble) : Statement (.addReg x y) :=
  ⟨by simp [Instr.row, opcodeMap], selects_xy (bits := 0x8004) x y (by decide) (by decide) (by decide)⟩

theorem sub (x y : Nibble) : Statement (.sub x y) :=
  ⟨by simp [Instr.row, opcodeMap], selects_xy (bits := 0x8005) x y (by decide) (by decide) (by decide)⟩

theorem shr (x y : Nibble) : Statement (.shr x y) :=
  ⟨by simp [Instr.row, opcodeMap], selects_xy (bits := 0x8006) x y (by decide) (by decide) (by decide)⟩

theorem subn (x y : Nibble) : Statement (.subn x y) :=
  ⟨by simp [Instr.row, opcodeMap], selects_xy (bits := 0x8007) x y (by decide) (by decide) (by decide)⟩

theorem shl (x y : Nibble) : Statement (.shl x y) :=
  ⟨by simp [Instr.row, opcodeMap], selects_xy (bits := 0x800E) x y (by decide) (by decide) (by decide)⟩

theorem sneReg (x y : Nibble) : Statement (.sneReg x y) :=
  ⟨by simp [Instr.row, opcodeMap], selects_xy (bits := 0x9000) x y (by decide) (by decide) (by decide)⟩

theorem ldI (nnn : Addr) : Statement (.ldI nnn) :=
  ⟨by simp [Instr.row, opcodeMap], selects_a (bits := 0xA000) nnn (by decide) (by decide)⟩

theorem jpV0 (nnn : Addr) : Statement (.jpV0 nnn) :=
  ⟨by simp [Instr.row, opcodeMap], selects_a (bits := 0xB000) nnn (by decide) (by decide)⟩

theorem rnd (x : Nibble) (nn : Byte) : Statement (.rnd x nn) :=
  ⟨by simp [Instr.row, opcodeMap], selects_xi (bits := 0xC000) x nn (by decide) (by decide)⟩

theorem drw (x y n : Nibble) : Statement (.drw x y n) :=
  ⟨by simp [Instr.row, opcodeMap], selects_drw x y n⟩

theorem skp (x : Nibble) : Statement (.skp x) :=
  ⟨by simp [Instr.row, opcodeMap], selects_xs (bits := 0xE09E) x (by decide) (by decide)⟩

theorem sknp (x : Nibble) : Statement (.sknp x) :=
  ⟨by simp [Instr.row, opcodeMap], selects_xs (bits := 0xE0A1) x (by decide) (by decide)⟩

theorem ldVxDt (x : Nibble) : Statement (.ldVxDt x) :=
  ⟨by simp [Instr.row, opcodeMap], selects_xs (bits := 0xF007) x (by decide) (by decide)⟩

theorem ldVxKey (x : Nibble) : Statement (.ldVxKey x) :=
  ⟨by simp [Instr.row, opcodeMap], selects_xs (bits := 0xF00A) x (by decide) (by decide)⟩

theorem ldDtVx (x : Nibble) : Statement (.ldDtVx x) :=
  ⟨by simp [Instr.row, opcodeMap], selects_xs (bits := 0xF015) x (by decide) (by decide)⟩

theorem ldStVx (x : Nibble) : Statement (.ldStVx x) :=
  ⟨by simp [Instr.row, opcodeMap], selects_xs (bits := 0xF018) x (by decide) (by decide)⟩

theorem addI (x : Nibble) : Statement (.addI x) :=
  ⟨by simp [Instr.row, opcodeMap], selects_xs (bits := 0xF01E) x (by decide) (by decide)⟩

theorem ldFont (x : Nibble) : Statement (.ldFont x) :=
  ⟨by simp [Instr.row, opcodeMap], selects_xs (bits := 0xF029) x (by decide) (by decide)⟩

theorem ldBcd (x : Nibble) : Statement (.ldBcd x) :=
  ⟨by simp [Instr.row, opcodeMap], selects_xs (bits := 0xF033) x (by decide) (by decide)⟩

theorem stRegs (x : Nibble) : Statement (.stRegs x) :=
  ⟨by simp [Instr.row, opcodeMap], selects_xs (bits := 0xF055) x (by decide) (by decide)⟩

theorem ldRegs (x : Nibble) : Statement (.ldRegs x) :=
  ⟨by simp [Instr.row, opcodeMap], selects_xs (bits := 0xF065) x (by decide) (by decide)⟩

end Sys2Proof.Laws.EncodedWord
end

