-- ==== Sys2Proof/Tests/Slice0.lean ====
section
/-! SUPPORT. Tests: words the opcode map refuses, a word of every instruction written out nibble by nibble, one cycle or
one instruction at a time against the vectors of 95_test_vectors.md, and for every obligation with hypotheses a
state and operands that meet them. -/

open Sys2Proof Sys2Proof.Machine Sys2Proof.Safety

namespace Sys2Proof.Tests

/-! ### Helpers -/

/-- The reset state with the instruction word `op` at 0x200. -/
def here (op : Nat) : State := State.reset.withFetchWord 16 op

/-- `s` with these registers. -/
def with' (s : State) (vs : List (Nibble × Byte)) : State := vs.foldl (fun s p => s.setReg p.1 p.2) s

/-- Something read from the next state, if there is one. -/
def after {α : Type} (o : Result) (f : State → α) : Option α :=
  match o with
  | .next t => some (f t)
  | .fault _ => none
  | .refused _ => none

/-- The error answered, if there is one. -/
def errorOf : Result → Option Fault
  | .fault e => some e
  | .next _ => none
  | .refused _ => none

/-- Whether there is a next state. -/
def completes (o : Result) : Bool := (after o fun _ => ()).isSome

theorem exists_next {o : Result} (h : completes o = true) : ∃ t, o = .next t := by
  cases o with
  | next t => exact ⟨t, rfl⟩
  | fault e => cases h
  | refused r => cases h

/-- Entry `k` of the stack. -/
def entry (s : State) (k : Fin 16) : Word := s.stack.get k

/-- The screen with one lit pixel, row 0, column 0. -/
def dot : Framebuffer := toggle (Vector.replicate 32 0) 0 0

/-! ### Words that are no instruction (R77; 95_test_vectors.md 2.1): the check refuses each, family by family -/

theorem test_wf_family0 : [0x0000#16, 0x00E1, 0x00FE, 0x0123, 0x0FFF].all (fun w => !wellFormedWord w) = true := by decide
theorem test_wf_family5 : [0x5AB1#16, 0x5ABF].all (fun w => !wellFormedWord w) = true := by decide
theorem test_wf_family8 :
    [0x8AB8#16, 0x8AB9, 0x8ABA, 0x8ABB, 0x8ABC, 0x8ABD, 0x8ABF].all (fun w => !wellFormedWord w) = true := by decide
theorem test_wf_family9 : [0x9AB1#16].all (fun w => !wellFormedWord w) = true := by decide
theorem test_wf_familyE : [0xE19F#16, 0xE1A0, 0xE100, 0xE1FF].all (fun w => !wellFormedWord w) = true := by decide
theorem test_wf_familyF :
    [0xF100#16, 0xF108, 0xF117, 0xF130, 0xF175, 0xF1FF].all (fun w => !wellFormedWord w) = true := by decide
theorem test_decode_refuses_by_name : decode 0x8AB8 = .error (.unknownOpcode 0x8AB8) ∧
    decodeBytes [0x60] = .error .tooShort := by decide

/-! ### A word of every instruction, its nibbles written out from the patterns of R74 -/

theorem test_decode_flow : decode 0b0000000011101110 = .ok .ret ∧ decode 0b0001101010111100 = .ok (.jp 0xABC) ∧
    decode 0b0010101010111100 = .ok (.call 0xABC) ∧ decode 0b1011000100100011 = .ok (.jpV0 0x123) := by decide
theorem test_decode_skips : decode 0b0011110001111111 = .ok (.seImm 12 0x7F) ∧
    decode 0b0100110001111111 = .ok (.sneImm 12 0x7F) ∧ decode 0b0101101010110000 = .ok (.seReg 10 11) ∧
    decode 0b1001101010110000 = .ok (.sneReg 10 11) := by decide
theorem test_decode_loads : decode 0b0110101000101111 = .ok (.ldImm 10 0x2F) ∧
    decode 0b0111000000001010 = .ok (.addImm 0 0x0A) ∧ decode 0b1100000111111111 = .ok (.rnd 1 0xFF) := by decide
theorem test_decode_alu : decode 0b1000101010110000 = .ok (.ldReg 10 11) ∧
    decode 0b1000101010110001 = .ok (.orReg 10 11) ∧ decode 0b1000101010110010 = .ok (.andReg 10 11) ∧
    decode 0b1000101010110011 = .ok (.xorReg 10 11) ∧ decode 0b1000101010110100 = .ok (.addReg 10 11) ∧
    decode 0b1000101010110101 = .ok (.sub 10 11) ∧ decode 0b1000101010110110 = .ok (.shr 10 11) ∧
    decode 0b1000101010110111 = .ok (.subn 10 11) ∧ decode 0b1000101010111110 = .ok (.shl 10 11) := by decide
theorem test_decode_memory : decode 0b1010000100100011 = .ok (.ldI 0x123) ∧
    decode 0b1111000100011110 = .ok (.addI 1) ∧ decode 0b1111000100101001 = .ok (.ldFont 1) ∧
    decode 0b1111000100110011 = .ok (.ldBcd 1) ∧ decode 0b1111000101010101 = .ok (.stRegs 1) ∧
    decode 0b1111000101100101 = .ok (.ldRegs 1) := by decide
theorem test_decode_display : decode 0b0000000011100000 = .ok .cls ∧
    decode 0b1101000100101111 = .ok (.drw 1 2 15) := by decide
theorem test_decode_input_timers : decode 0b1110000110011110 = .ok (.skp 1) ∧
    decode 0b1110000110100001 = .ok (.sknp 1) ∧ decode 0b1111000100000111 = .ok (.ldVxDt 1) ∧
    decode 0b1111000100001010 = .ok (.ldVxKey 1) ∧ decode 0b1111000100010101 = .ok (.ldDtVx 1) ∧
    decode 0b1111000100011000 = .ok (.ldStVx 1) := by decide
/-- The first byte is the more significant (S12). -/
theorem test_decode_bytes : decodeBytes [0x12, 0x34, 0x56] = .ok (.jp 0x234, [0x56]) ∧
    encodeBytes (.jp 0x234) = [0x12, 0x34] ∧ decodeTableWord 16 0x1234 = some (.jp 0x234) := by decide

/-! ### The cycle, reset and load (95_test_vectors.md 2.1, 2.2, 2.6, 2.7) -/

/-- The all-zero word at reset is unknown, and an error cycle ticks no timer. -/
theorem test_cycle_unknown : cycle { here 0x8AB8 with dt := 5 } =
    .ok ({ here 0x8AB8 with dt := 5 }, .error (.unknownOpcode 0x8AB8)) := by rfl
theorem test_cycle_empty_rom : errorOf (step State.reset) = some (.unknownOpcode 0) := by decide
/-- 4094 is the last fetchable address, and 4095 is not. -/
theorem test_cycle_fetch_4094 : after (step ({ State.reset with pc := 0xFFE }.withFetchWord 16 0x6007))
    (fun t => (t.reg 0, t.pc)) = some (7, 0x1000) := by decide
theorem test_cycle_fetch_4095 : errorOf (step { State.reset with pc := 0xFFF }) = some .outOfBoundsAccess := by decide
/-- An odd `pc` is legal (R56). -/
theorem test_cycle_odd_pc : after (step ({ State.reset with pc := 0x235 }.withFetchWord 16 0x6A2F))
    (fun t => (t.reg 10, t.pc)) = some (0x2F, 0x237) := by decide
theorem test_tick_255 : after (step { here 0x6000 with dt := 255, st := 255 })
    (fun t => (t.dt, t.st, t.edge)) = some (254, 254, false) := by decide
/-- S8: the edge once, and no further edge at 0. -/
theorem test_tick_edge : after (step { here 0x6000 with st := 1 }) (fun t => (t.st, t.edge)) = some (0, true) ∧
    after (step { here 0x6000 with edge := true }) (fun t => (t.st, t.edge)) = some (0, false) := by decide
/-- The default font with an empty ROM is the reset state, so that the two descriptions agree. -/
theorem test_font_is_reset_memory : Mem.writeList [] 0x050 defaultFont.toList = [] := by decide +kernel
theorem test_load_empty : load defaultFont [] = .ok State.reset := by
  rw [load, if_neg (show ¬ ([] : List Byte).length > Config.romMax from Nat.not_lt_zero _), Mem.writeList]
  simp only [Config.fontBase, test_font_is_reset_memory]
  rfl
theorem test_load_one : (load defaultFont [0xAA]).toOption.map (fun s =>
    (s.byteAt 0x200, s.byteAt 0x201, s.byteAt 0x050, s.byteAt 0x04F, s.byteAt 0x0A0)) =
    some (0xAA, 0, 0xF0, 0, 0) := by decide +kernel
/-- S9 as the host sees it: load, then one step. -/
theorem test_interact : interact defaultFont .unloaded .step = .error .beforeLoad ∧
    (interact defaultFont (.running (here 0x6005)) .step).toOption.map (·.2) = some (.outcome .normal) := by decide
/-- R255: a self-jump is told from a jump elsewhere, and a run is its interactions in order. -/
theorem test_self_jump : (here 0x1200).atSelfJump = true ∧ (here 0x1202).atSelfJump = false ∧
    State.reset.atSelfJump = false := by decide
/-- A write of the reset contents lists nothing (the canonical form of memory). -/
theorem test_memory_canonical : Mem.write (Mem.write [] 0x300 7) 0x300 0 = [] ∧ Mem.write [] 0x050 0xF0 = [] ∧
    Mem.wf (Mem.write [(0x300, 7)] 0x2FF 9) = true ∧ Mem.wf [(4096, 1)] = false := by decide

/-! ### Control transfer (2.2) -/

theorem test_jp : after (step (here 0x1234)) (fun t => t.pc) = some 0x234 := by decide
theorem test_call : after (step (here 0x2300)) (fun t => (entry t 0, t.sp, t.pc)) = some (0x200, 1, 0x300) := by decide
theorem test_call_16 : after (step { here 0x2300 with sp := 15 }) (fun t => (entry t 15, t.sp)) = some (0x200, 16) ∧
    errorOf (step { here 0x2300 with sp := 16 }) = some .stackOverflow := by decide
theorem test_ret : after (step { here 0x00EE with sp := 2, stack := (Vector.replicate 16 0).set 1 0xFFE })
    (fun t => (t.pc, t.sp)) = some (0x1000, 1) := by decide
theorem test_ret_empty : errorOf (step (here 0x00EE)) = some .stackUnderflow := by decide
theorem test_jpV0 : after (step (with' (here 0xBFFF) [(0, 0xFF)])) (fun t => t.pc) = some 0x10FE := by decide
theorem test_jpV0_register : after (step (with' (here 0xB2F0) [(2, 0x55)])) (fun t => t.pc) = some 0x2F0 := by decide
theorem test_seImm : after (step (with' (here 0x332A) [(3, 0x2A)])) (fun t => t.pc) = some 0x204 ∧
    after (step (with' (here 0x332B) [(3, 0x2A)])) (fun t => t.pc) = some 0x202 := by decide
theorem test_sneImm : after (step (with' (here 0x432A) [(3, 0x2A)])) (fun t => t.pc) = some 0x202 ∧
    after (step (with' (here 0x432B) [(3, 0x2A)])) (fun t => t.pc) = some 0x204 := by decide
theorem test_seReg : after (step (with' (here 0x5120) [(1, 7), (2, 7)])) (fun t => t.pc) = some 0x204 ∧
    after (step (with' (here 0x5120) [(1, 7), (2, 8)])) (fun t => t.pc) = some 0x202 := by decide
theorem test_sneReg : after (step (with' (here 0x9120) [(1, 7), (2, 8)])) (fun t => t.pc) = some 0x204 ∧
    after (step (with' (here 0x9AA0) [(10, 0x99)])) (fun t => t.pc) = some 0x202 := by decide

/-! ### Register and ALU instructions (2.3) -/

theorem test_ldImm : after (step (here 0x6FAB)) (fun t => t.reg 15) = some 0xAB := by decide
theorem test_addImm : after (step (with' (here 0x700A) [(0, 0xFA), (15, 0x33)]))
    (fun t => (t.reg 0, t.reg 15)) = some (0x04, 0x33) := by decide
theorem test_ldReg : after (step (with' (here 0x8120) [(2, 0x33)])) (fun t => t.reg 1) = some 0x33 := by decide
theorem test_orReg : after (step (with' (here 0x8121) [(1, 0x0F), (2, 0xF0), (15, 0x55)]))
    (fun t => (t.reg 1, t.reg 15)) = some (0xFF, 0x55) := by decide
theorem test_andReg : after (step (with' (here 0x8122) [(1, 0x3C), (2, 0x0F), (15, 0x55)]))
    (fun t => (t.reg 1, t.reg 15)) = some (0x0C, 0x55) := by decide
theorem test_xorReg : after (step (with' (here 0x8123) [(1, 0xFF), (2, 0x0F), (15, 0x55)]))
    (fun t => (t.reg 1, t.reg 15)) = some (0xF0, 0x55) := by decide
theorem test_addReg : after (step (with' (here 0x83A4) [(3, 0xF0), (10, 0x20)]))
    (fun t => (t.reg 3, t.reg 15)) = some (0x10, 1) := by decide
/-- `y = 15` reads the old flag, and with `x = 15` the result stays (D4, D5). -/
theorem test_addReg_flag : after (step (with' (here 0x81F4) [(1, 0x10), (15, 0x05)]))
    (fun t => (t.reg 1, t.reg 15)) = some (0x15, 0) ∧
    after (step (with' (here 0x8FA4) [(15, 0xF0), (10, 0x20)])) (fun t => t.reg 15) = some 0x10 := by decide
theorem test_sub : after (step (with' (here 0x8125) [(1, 5), (2, 7)])) (fun t => (t.reg 1, t.reg 15)) = some (0xFE, 0) ∧
    after (step (with' (here 0x8125) [(1, 7), (2, 7)])) (fun t => (t.reg 1, t.reg 15)) = some (0, 1) := by decide
theorem test_sub_flag : after (step (with' (here 0x8F15) [(15, 5), (1, 7)])) (fun t => t.reg 15) = some 0xFE := by decide
theorem test_shr : after (step (with' (here 0x8126) [(1, 0x05), (2, 0xF0)]))
    (fun t => (t.reg 1, t.reg 15, t.reg 2)) = some (0x02, 1, 0xF0) := by decide
theorem test_shr_flag : after (step (with' (here 0x8F06) [(15, 0x05)])) (fun t => t.reg 15) = some 0x02 := by decide
theorem test_subn : after (step (with' (here 0x8127) [(1, 5), (2, 7)])) (fun t => (t.reg 1, t.reg 15)) = some (2, 1) ∧
    after (step (with' (here 0x8127) [(1, 7), (2, 5)])) (fun t => (t.reg 1, t.reg 15)) = some (0xFE, 0) := by decide
theorem test_subn_flag : after (step (with' (here 0x8F17) [(15, 5), (1, 7)])) (fun t => t.reg 15) = some 0x02 := by decide
theorem test_shl : after (step (with' (here 0x810E) [(1, 0x81)])) (fun t => (t.reg 1, t.reg 15)) = some (0x02, 1) ∧
    after (step (with' (here 0x810E) [(1, 0x7F)])) (fun t => (t.reg 1, t.reg 15)) = some (0xFE, 0) := by decide
theorem test_shl_flag : after (step (with' (here 0x8F0E) [(15, 0x81)])) (fun t => t.reg 15) = some 0x02 := by decide
/-- CXNN with draw 0xB7. -/
theorem test_rnd : after (rndWith 0xB7 1 0x0F State.reset) (fun t => (t.reg 1, t.draws)) = some (0x07, 1) := by decide

/-! ### Address register and memory (2.4) -/

theorem test_ldI : after (step (here 0xAFFF)) (fun t => t.i) = some 0xFFF := by decide
theorem test_addI : after (step (with' { here 0xF01E with i := 0xFFF } [(0, 1)]))
    (fun t => (t.i, t.reg 15)) = some (0x000, 0) := by decide
theorem test_ldFont : after (step (with' (here 0xF029) [(0, 0xFF)])) (fun t => t.i) = some 0x54B ∧
    after (step (with' (here 0xF029) [(0, 0x0F)])) (fun t => t.i) = some 0x09B := by decide
theorem test_ldBcd : after (step (with' { here 0xF033 with i := 0xFFD } [(0, 123)]))
    (fun t => (t.byteAt 0xFFD, t.byteAt 0xFFE, t.byteAt 0xFFF)) = some (1, 2, 3) := by decide
theorem test_ldBcd_oob : errorOf (step (with' { here 0xF033 with i := 0xFFE } [(0, 123)])) =
    some .outOfBoundsAccess := by decide
theorem test_stRegs : after (step (with' { here 0xF255 with i := 0x400 } [(0, 0x11), (1, 0x22), (2, 0x33), (3, 0x44)]))
    (fun t => ((List.range 4).map fun k => t.byteAt (0x400 + k), t.i)) =
    some ([0x11, 0x22, 0x33, 0], 0x400) := by decide
theorem test_stRegs_top : after (step (with' { here 0xFF55 with i := 0xFF0 } [(15, 9)]))
    (fun t => (t.byteAt 0xFFE, t.byteAt 0xFFF)) = some (0, 9) ∧
    errorOf (step { here 0xFF55 with i := 0xFF1 }) = some .outOfBoundsAccess := by decide
theorem test_ldRegs : after (step (with' { (here 0xF265).storeBytes 0x300 [2, 5, 5, 7] with i := 0x300 } [(3, 0xEE)]))
    (fun t => (t.reg 0, t.reg 1, t.reg 2, t.reg 3, t.i)) = some (2, 5, 5, 0xEE, 0x300) := by decide
/-- Reads the default font (rests on assumption 3), and the range check. -/
theorem test_ldRegs_font : after (step { here 0xF165 with i := 0x050 }) (fun t => (t.reg 0, t.reg 1)) =
    some (0xF0, 0x90) ∧ errorOf (step { here 0xFF65 with i := 0xFF1 }) = some .outOfBoundsAccess := by decide

/-! ### Display (2.5) -/

theorem test_cls : after (step (with' { here 0x00E0 with fb := dot } [(15, 3)])) (fun t => (lit t.fb 0 0, t.reg 15)) =
    some (false, 3) := by decide
/-- Wrap in x, in the same row; bit 7 is the leftmost column. -/
theorem test_drw_wrap : after (step (with' { (here 0xD012).storeBytes 0x300 [0xF8, 0x80] with i := 0x300 }
      [(0, 60), (1, 31)]))
    (fun t => ([lit t.fb 31 60, lit t.fb 31 63, lit t.fb 31 0, lit t.fb 31 1, lit t.fb 0 60, lit t.fb 0 61], t.reg 15)) =
    some ([true, true, true, false, true, false], 0) := by decide
/-- A collision, the coordinates taken before the flag is written, and the range check. -/
theorem test_drw_collision : after (step { (here 0xD011).storeBytes 0x300 [0xC0] with i := 0x300, fb := dot })
    (fun t => (lit t.fb 0 0, lit t.fb 0 1, t.reg 15)) = some (false, true, 1) ∧
    after (step (with' { (here 0xDF11).storeBytes 0x300 [0x80] with i := 0x300 } [(15, 3)]))
      (fun t => (lit t.fb 0 3, t.reg 15)) = some (true, 0) ∧
    errorOf (step { here 0xD005 with i := 0xFFC }) = some .outOfBoundsAccess := by decide

/-! ### Keys and timers (2.6) -/

theorem test_skp : after (step (with' { here 0xE09E with key := 0x0400 } [(0, 0x1A)])) (fun t => t.pc) = some 0x204 ∧
    after (step (with' (here 0xE29E) [(2, 5)])) (fun t => t.pc) = some 0x202 := by decide
theorem test_sknp : after (step (with' (here 0xE2A1) [(2, 5)])) (fun t => t.pc) = some 0x204 ∧
    after (step (with' { here 0xE2A1 with key := 0x0020 } [(2, 5)])) (fun t => t.pc) = some 0x202 := by decide
theorem test_ldVxKey : after (step { here 0xF50A with key := 0x0208 }) (fun t => (t.reg 5, t.pc, t.mode, t.key)) =
    some (3, 0x202, .normal, 0x0208) := by decide
theorem test_ldVxKey_wait : after (step (with' { here 0xF50A with dt := 3, st := 1 } [(5, 0x77)]))
    (fun t => (t.reg 5, t.pc, t.mode, t.dt, t.edge)) = some (0x77, 0x200, .awaitingKey, 2, true) := by decide
theorem test_ldVxDt : after (step { here 0xF307 with dt := 0x10 }) (fun t => (t.reg 3, t.dt)) = some (0x10, 0x0F) := by
  decide
theorem test_ldDtVx : after (step (with' (here 0xF115) [(1, 0x3C)])) (fun t => t.dt) = some 0x3B ∧
    after (step (with' (here 0xF115) [(1, 1)])) (fun t => (t.dt, t.edge)) = some (0, false) := by decide
theorem test_ldStVx : after (step (with' (here 0xF118) [(1, 1)])) (fun t => (t.st, t.edge)) = some (0, true) ∧
    after (step (with' { here 0xF118 with st := 5 } [(1, 0)])) (fun t => (t.st, t.edge)) = some (0, false) := by decide

/-! ### Witnesses: states and operands that meet an obligation's hypotheses, at the boundaries of its clauses -/

/-- The last fetchable address, with an instruction there. -/
def atEnd (op : Nat) : State := { State.reset with pc := 0xFFE }.withFetchWord 16 op

/-- A full stack, every entry 4094. -/
def deep (s : State) : State := { s with sp := 16, stack := Vector.replicate 16 0xFFE }

theorem witness_EncodeUndoesDecode : decode 0xF165 = .ok (.ldRegs 1) := by decide
theorem witness_DecoderAcceptsTheOpcodeMap : decode 0x00E0 = .ok .cls ∧ Instr.cls.row ∈ opcodeMap := by decide
theorem witness_StepRunsDecodedInstruction : (atEnd 0x6007).pc.toNat = 4094 ∧
    decode (wordAtPc (atEnd 0x6007)) = .ok (.ldImm 0 7) := by decide
theorem witness_CycleEndsWithTick : (atEnd 0xF00A).pc.toNat = 4094 ∧
    decode (wordAtPc (atEnd 0xF00A)) = .ok (.ldVxKey 0) ∧ ∃ t, exec (.ldVxKey 0) (atEnd 0xF00A) = .next t :=
  ⟨by decide, by decide, exists_next (by decide)⟩
theorem witness_FetchPastTheEndIsReported : 4094 < ({ State.reset with pc := 0xFFF } : State).pc.toNat := by decide
theorem witness_IllegalWordIsReported : (atEnd 0x00E1).pc.toNat = 4094 ∧
    wellFormedWord (wordAtPc (atEnd 0x00E1)) = false := by decide
/-- An error, and a jump to its own address at the last address a fetch can read. -/
theorem witness_EndedRunsStayEnded : EndsRun (.error (.unknownOpcode 0)) State.reset ∧ EndsRun .selfJump (atEnd 0x1FFE) :=
  ⟨rfl, by unfold EndsRun; decide⟩
/-- Each line of `WhichInstructionsFault`, at the first value that fails and the last that does not. -/
theorem witness_WhichInstructionsFault : errorOf (exec .ret State.reset) = some .stackUnderflow ∧
    errorOf (exec (.call 0) (deep State.reset)) = some .stackOverflow ∧
    errorOf (exec (.drw 0 0 1) { State.reset with i := 0xFFF }) = none ∧
    errorOf (exec (.drw 0 0 2) { State.reset with i := 0xFFF }) = some .outOfBoundsAccess ∧
    errorOf (exec (.drw 0 0 0) { State.reset with i := 0xFFF }) = none ∧
    errorOf (exec (.ldBcd 0) { State.reset with i := 0xFFE }) = some .outOfBoundsAccess ∧
    errorOf (exec (.stRegs 1) { State.reset with i := 0xFFF }) = some .outOfBoundsAccess ∧
    errorOf (exec (.ldRegs 1) { State.reset with i := 0xFFF }) = some .outOfBoundsAccess := by decide
/-- A return to the last fetchable address's successor, from a full stack. -/
theorem witness_EveryCycleKeepsInv : CoreInv (deep (here 0x00EE)) ∧ ∃ t, step (deep (here 0x00EE)) = .next t :=
  ⟨by decide +kernel, exists_next (by decide)⟩
theorem witness_EveryInteractionKeepsInv : SessionInv .unloaded ∧
    interact defaultFont .unloaded (.load []) = .ok (.running State.reset, .done) ∧
    SessionInv (.running State.reset) ∧
    interact defaultFont (.running State.reset) (.setAllKeys 0) = .ok (.running State.reset, .done) ∧
    run defaultFont (.running State.reset) [.setAllKeys 0, .readDt] = .ok (.running State.reset, [.done, .byte 0]) :=
  ⟨trivial, by simp only [interact, interactUnloaded, test_load_empty], by unfold SessionInv; decide +kernel, rfl, rfl⟩
theorem witness_LoadLaysOutMemory : (List.replicate 3584 (0x60 : Byte)).length ≤ 3584 := by
  rw [List.length_replicate]
theorem witness_OversizedRomIsRefused : (List.replicate 3585 (0x60 : Byte)).length > 3584 ∧
    (List.replicate 3584 (0x60 : Byte)).length ≤ 3584 := by
  rw [List.length_replicate, List.length_replicate]; decide
theorem witness_HostPortsOfARunningMachine :
    (interact defaultFont (.running State.reset) (.setKey 15 true)).toOption =
      some (.running { State.reset with key := 0x8000 }, .done) ∧
    interact defaultFont (.running State.reset) (.setKey 16 true) = .error .keyIndexOutOfRange := ⟨rfl, rfl⟩
/-- Every clause of `ClosedEffects` has an instruction that writes that part. -/
theorem witness_ClosedEffects :
    after (exec (.addImm 3 1) State.reset) (fun t => (t.reg 3, t.pc)) = some (1, 0x202) ∧
    after (exec (.sub 0 0) State.reset) (fun t => t.reg 15) = some 1 ∧
    after (exec (.ldRegs 14) { State.reset with i := 0x042 }) (fun t => t.reg 14) = some 0xF0 ∧
    after (exec (.jp 0) State.reset) (fun t => t.pc) = some 0 ∧
    after (exec (.seImm 0 0) State.reset) (fun t => t.pc) = some 0x204 ∧
    after (exec (.ldVxKey 0) State.reset) (fun t => (t.pc, t.mode)) = some (0x200, .awaitingKey) ∧
    after (exec .cls { State.reset with fb := dot }) (fun t => lit t.fb 0 0) = some false ∧
    after (exec (.drw 0 0 1) { State.reset with i := 0x050 }) (fun t => lit t.fb 0 0) = some true ∧
    after (exec (.stRegs 0) (with' State.reset [(0, 1)])) (fun t => t.mem) = some [(0, 1)] ∧
    after (exec (.ldBcd 0) (with' State.reset [(0, 1)])) (fun t => t.mem) = some [(2, 1)] ∧
    after (exec (.ldI 5) State.reset) (fun t => t.i) = some 5 ∧
    after (exec (.addI 0) (with' State.reset [(0, 1)])) (fun t => t.i) = some 1 ∧
    after (exec (.ldFont 0) State.reset) (fun t => t.i) = some 0x050 ∧
    after (exec (.call 0) State.reset) (fun t => (entry t 0, t.sp)) = some (0x200, 1) ∧
    after (exec .ret (deep State.reset)) (fun t => t.sp) = some 15 ∧
    after (exec (.ldDtVx 0) (with' State.reset [(0, 1)])) (fun t => t.dt) = some 1 ∧
    after (exec (.ldStVx 0) (with' State.reset [(0, 1)])) (fun t => t.st) = some 1 ∧
    after (rndWith 0xB7 0 0 State.reset) (fun t => t.draws) = some 1 := by decide
theorem witness_WhoWritesTheFlag :
    after (exec (.shl 0 0) (with' State.reset [(0, 0x80)])) (fun t => t.reg 15) = some 1 ∧
    after (exec (.drw 0 0 1) { State.reset with i := 0x050, fb := dot }) (fun t => t.reg 15) = some 1 ∧
    after (exec (.addImm 15 7) State.reset) (fun t => t.reg 15) = some 7 ∧
    after (exec (.ldReg 15 0) (with' State.reset [(0, 7)])) (fun t => t.reg 15) = some 7 ∧
    after (exec (.ldVxDt 15) { State.reset with dt := 7 }) (fun t => t.reg 15) = some 7 ∧
    after (exec (.ldVxKey 15) { State.reset with key := 0x0080 }) (fun t => t.reg 15) = some 7 ∧
    after (exec (.ldRegs 15) { State.reset with i := 0x041 }) (fun t => t.reg 15) = some 0xF0 := by decide
theorem witness_WhenTheMachineAwaitsAKey :
    after (exec (.ldVxKey 0) State.reset) (fun t => t.mode) = some .awaitingKey ∧
    (∀ k, State.reset.keyDown k = false) ∧
    after (exec (.ldVxKey 0) { State.reset with key := 1 }) (fun t => t.mode) = some .normal := by decide
/-- Two machines that differ in every stack entry, none of them live: one completes, one reports an error. -/
theorem witness_DeadStackEntriesAreNotRead :
    SameButDead (here 0x2300) { here 0x2300 with stack := Vector.replicate 16 7 } ∧
    (∃ t, step (here 0x2300) = .next t) ∧
    SameButDead (here 0x00EE) { here 0x00EE with stack := Vector.replicate 16 7 } ∧
    step (here 0x00EE) = .fault .stackUnderflow :=
  ⟨⟨rfl, fun k hk => absurd hk (Nat.not_lt_zero _)⟩, exists_next (by decide),
    ⟨rfl, fun k hk => absurd hk (Nat.not_lt_zero _)⟩, by rfl⟩
theorem witness_SoundTimerIsNotRead : ∃ t, exec (.ldStVx 0) State.reset = .next t := exists_next (by decide)
theorem witness_ReturnGoesPastTheCall : (15 : Fin 16).val + 1 = (deep State.reset).sp.val ∧
    ((deep State.reset).stack.get 15).toNat = 4094 ∧ (here 0x00EE).sp.val = 0 ∧ (here 0x00EE).pc.toNat ≤ 4094 ∧
    wordAtPc (here 0x00EE) = 0x00EE := by decide
theorem witness_JumpSetsPc : (0xFFF : Addr).toNat = 0xFFF ∧ (atEnd 0x1FFE).pc.toNat ≤ 4094 ∧
    (wordAtPc (atEnd 0x1FFE)).toNat = 0x1000 + (0xFFE : Addr).toNat ∧
    (atEnd 0x1FFE).pc.toNat = (0xFFE : Addr).toNat := by decide
theorem witness_CallSavesItsAddress : (15 : Fin 16).val = ({ State.reset with sp := 15 } : State).sp.val ∧
    (deep (atEnd 0x2FFF)).sp.val = 16 ∧ (deep (atEnd 0x2FFF)).pc.toNat ≤ 4094 ∧
    (wordAtPc (deep (atEnd 0x2FFF))).toNat = 0x2000 + (0xFFF : Addr).toNat := by decide
theorem witness_SkipsCompareAndAdvance : ({ State.reset with pc := 0xFFC } : State).pc.toNat = 4092 ∧
    ({ State.reset with pc := 0xFFC } : State).reg 0 = 0 := by decide
theorem witness_CallThenReturn : ∃ t, exec (.call 0x300) { State.reset with sp := 15 } = .next t :=
  exists_next (by decide)
/-- `AddWithCarry`, `SubtractWithBorrow`, `ShiftsByOne`: a destination that is not the flag register. -/
theorem witness_FlagOfAnotherDestination : (14 : Nibble) ≠ 15 := by decide
theorem witness_RandomIsMasked : (0x0F : Byte).getLsbD 4 = false := by decide
/-- `BcdDigitsAreStored`: the last `I` that fits and the first that does not. -/
theorem witness_BcdDigitsAreStored : ({ State.reset with i := 0xFFD } : State).i.toNat + 2 ≤ 4095 ∧
    ({ State.reset with i := 0xFFE } : State).i.toNat + 2 > 4095 := by decide
theorem witness_BlockStoreAndLoad : ({ State.reset with i := 0xFF0 } : State).i.toNat + (15 : Nibble).toNat ≤ 4095 ∧
    ({ State.reset with i := 0xFF1 } : State).i.toNat + (15 : Nibble).toNat > 4095 ∧
    (15 : Nibble).toNat ≤ (15 : Nibble).toNat := by decide
theorem witness_BlockLoadUndoesBlockStore : ∃ t u, exec (.stRegs 15) { State.reset with i := 0xFF0 } = .next t ∧
    exec (.ldRegs 15) { t with v := Vector.replicate 16 7 } = .next u := ⟨_, _, rfl, rfl⟩
theorem witness_StoredBytesAreFetched : 1 ≤ (1 : Nibble).toNat ∧
    (∃ t, exec (.stRegs 1) (with' { State.reset with i := 0xFFE } [(0, 0x6A), (1, 0x77)]) = .next t) ∧
    decode (BitVec.ofNat 16 (((with' State.reset [(0, 0x6A), (1, 0x77)]).reg 0).toNat * 256 +
      ((with' State.reset [(0, 0x6A), (1, 0x77)]).reg 1).toNat)) = .ok (.ldImm 10 0x77) :=
  ⟨by decide, exists_next (by decide), by decide⟩
/-- The screen position under the top left bit of glyph 0. -/
theorem covered_glyph (s : State) (hi : s.i = 0x050) (hm : s.mem = []) (n : Nat) (hn : 0 < n) : Covered s 0 0 n 0 0 := by
  refine ⟨0, 0, hn, by decide, ?_, rfl, rfl⟩
  unfold State.byteAt
  rw [hi, hm]
  decide
/-- `DrawFlipsThePixelsUnderTheSprite`: no rows, the last rows of memory, one row too many, a collision and none. -/
theorem witness_DrawFlipsThePixelsUnderTheSprite : (0 : Nibble).toNat = 0 ∧
    ({ State.reset with i := 0xFFC } : State).i.toNat + (4 : Nibble).toNat - 1 ≤ 4095 ∧
    ({ State.reset with i := 0xFFC } : State).i.toNat + (5 : Nibble).toNat - 1 > 4095 ∧
    (Covered { State.reset with i := 0x050, fb := dot } 0 0 1 0 0 ∧ lit dot 0 0 = true) ∧
    ¬ ∃ py px, Covered { State.reset with i := 0x050 } 0 0 1 py px ∧ lit State.reset.fb py px = true := by
  refine ⟨by decide, by decide, by decide, ⟨covered_glyph _ rfl rfl 1 (by decide), by decide⟩, ?_⟩
  rintro ⟨py, px, -, h⟩
  have : ∀ y x, lit State.reset.fb y x = false := fun y x => by
    simp [lit, State.reset, Vector.get_eq_getElem]
  rw [this] at h
  cases h
theorem witness_DrawingTwiceErases : ∃ t u, exec (.drw 0 1 1) { State.reset with i := 0x050 } = .next t ∧
    exec (.drw 0 1 1) t = .next u ∧ t.reg 0 = State.reset.reg 0 ∧ t.reg 1 = State.reset.reg 1 ∧
    Covered { State.reset with i := 0x050 } 0 0 1 0 0 ∧ ∀ py px, lit State.reset.fb py px = false :=
  ⟨_, _, rfl, rfl, rfl, rfl, covered_glyph _ rfl rfl 1 (by decide), fun y x => by
    simp [lit, State.reset, Vector.get_eq_getElem]⟩
/-- `KeySkips`: a register above 15 names the key of its low nibble. -/
theorem witness_KeySkips : (10 : Nibble).toNat = ((with' State.reset [(0, 0xFA)]).reg 0).toNat % 16 := by decide
theorem witness_KeyWait : ({ State.reset with key := 0x8000 } : State).keyDown 15 = true ∧
    (∀ j : Nibble, j.toNat < (15 : Nibble).toNat → ({ State.reset with key := 0x8000 } : State).keyDown j = false) ∧
    ({ State.reset with key := 0x8001 } : State).keyDown 0 = true ∧ ∀ k, State.reset.keyDown k = false := by decide
theorem witness_WaitingCycleTicks : (atEnd 0xFF0A).pc.toNat = 4094 ∧
    (wordAtPc (atEnd 0xFF0A)).toNat = 0xF00A + (15 : Nibble).toNat * 256 ∧
    ∀ k, (atEnd 0xFF0A).keyDown k = false := by decide
theorem witness_ReadingTheDelayTimer : (atEnd 0xFF07).pc.toNat = 4094 ∧
    (wordAtPc (atEnd 0xFF07)).toNat = 0xF007 + (15 : Nibble).toNat * 256 := by decide
theorem witness_LoadedTimerTicksAtOnce : (atEnd 0xFF15).pc.toNat = 4094 ∧
    (wordAtPc (atEnd 0xFF15)).toNat = 0xF015 + (15 : Nibble).toNat * 256 ∧
    (wordAtPc (atEnd 0xFF18)).toNat = 0xF018 + (15 : Nibble).toNat * 256 := by decide

/-- The frames: every instruction they name answers a next state somewhere. -/
theorem witness_RegisterWriteFrame : [Instr.ldImm 15 0, .addImm 15 0, .ldReg 15 0, .orReg 15 0, .andReg 15 0,
    .xorReg 15 0, .ldVxDt 15, .ldVxKey 15].all (fun i => completes (exec i State.reset)) = true ∧
    ∃ t, exec (.rnd 15 0) State.reset = .next t := ⟨by decide, _, rfl⟩
theorem witness_FlagWriteFrame : [Instr.addReg 15 15, .sub 15 15, .shr 15 15, .subn 15 15, .shl 15 15].all
    (fun i => completes (exec i State.reset)) = true := by decide
theorem witness_JumpAndSkipFrame : [Instr.jp 0xFFF, .jpV0 0xFFF, .seImm 0 0, .sneImm 0 0, .seReg 0 0, .sneReg 0 0,
    .skp 0, .sknp 0].all (fun i => completes (exec i State.reset)) = true := by decide
theorem witness_CallAndReturnFrame : completes (exec (.call 0) { State.reset with sp := 15 }) = true ∧
    completes (exec .ret (deep State.reset)) = true ∧
    (0 : Fin 16).val ≠ ({ State.reset with sp := 15 } : State).sp.val := by decide
theorem witness_AddressRegisterFrame : [Instr.ldI 0xFFF, .addI 0, .ldFont 0].all
    (fun i => completes (exec i State.reset)) = true := by decide
theorem witness_StoreFrame : completes (exec (.ldBcd 0) { State.reset with i := 0xFFD }) = true ∧
    completes (exec (.stRegs 15) { State.reset with i := 0xFF0 }) = true := by decide
theorem witness_BlockLoadFrame : completes (exec (.ldRegs 14) { State.reset with i := 0xFF1 }) = true ∧
    (14 : Nibble).toNat < (15 : Nibble).toNat := by decide
theorem witness_DisplayFrame : completes (exec .cls State.reset) = true ∧
    completes (exec (.drw 0 0 4) { State.reset with i := 0xFFC }) = true := by decide
theorem witness_TimerLoadFrame : completes (exec (.ldDtVx 0) State.reset) = true ∧
    completes (exec (.ldStVx 0) State.reset) = true := by decide

end Sys2Proof.Tests
end

section
/-! PROOFS. The decoder against the opcode map (R74, R75), and the report of an illegal word (R76). -/

namespace Sys2Proof

/-! ### A row selects a word by the fields its mask keeps (R74) -/

/-- The rows of mask 0xF000 fix the family nibble alone. -/
theorem selects_F000 {bits op : Word} {t : Nibble} (ht : fieldT op = t)
    (hbits : bits.toNat = t.toNat * 4096) : Row.selects ⟨0xF000, bits⟩ op = true := by
  have hmask := toNat_mask_F000 op
  rw [← toNat_fieldT, ht] at hmask
  rw [Row.selects, beq_iff_eq]
  exact BitVec.eq_of_toNat_eq (hmask.trans hbits.symm)

/-- The rows of mask 0xF00F fix the family nibble and the low nibble. -/
theorem selects_F00F {bits op : Word} {t n : Nibble} (ht : fieldT op = t) (hn : fieldN op = n)
    (hbits : bits.toNat = t.toNat * 4096 + n.toNat) : Row.selects ⟨0xF00F, bits⟩ op = true := by
  have hmask := toNat_mask_F00F op
  rw [← toNat_fieldT, ← toNat_fieldN, ht, hn] at hmask
  rw [Row.selects, beq_iff_eq]
  exact BitVec.eq_of_toNat_eq (hmask.trans hbits.symm)

/-- The rows of mask 0xF0FF fix the family nibble and the low byte. -/
theorem selects_F0FF {bits op : Word} {t : Nibble} {nn : Byte} (ht : fieldT op = t) (hnn : fieldNN op = nn)
    (hbits : bits.toNat = t.toNat * 4096 + nn.toNat) : Row.selects ⟨0xF0FF, bits⟩ op = true := by
  have hmask := toNat_mask_F0FF op
  rw [← toNat_fieldT, ← toNat_fieldNN, ht, hnn] at hmask
  rw [Row.selects, beq_iff_eq]
  exact BitVec.eq_of_toNat_eq (hmask.trans hbits.symm)

/-! ### Each family's decoder answers instructions whose row selects the word (R75) -/

theorem decodeFamily0_selects {op : Word} {i : Instr} (h : decodeFamily0 op = .ok i) :
    i.row.selects op = true := by
  unfold decodeFamily0 at h
  split at h
  · next hop => cases h; subst hop; decide
  split at h
  · next hop => cases h; subst hop; decide
  · cases h

theorem decodeLowZero_ok_iff (op : Word) (i j : Instr) :
    decodeLowZero op i = .ok j ↔ fieldN op = 0x0#4 ∧ i = j := by
  unfold decodeLowZero
  split <;> simp_all

theorem decodeFamily8_selects {op : Word} {i : Instr} (ht : fieldT op = 0x8#4) (h : decodeFamily8 op = .ok i) :
    i.row.selects op = true := by
  unfold decodeFamily8 at h
  split at h <;> cases h
  all_goals next hn => exact selects_F00F ht hn (by decide)

theorem decodeFamilyE_selects {op : Word} {i : Instr} (ht : fieldT op = 0xE#4) (h : decodeFamilyE op = .ok i) :
    i.row.selects op = true := by
  unfold decodeFamilyE at h
  split at h <;> cases h
  all_goals next hnn => exact selects_F0FF ht hnn (by decide)

theorem decodeFamilyF_selects {op : Word} {i : Instr} (ht : fieldT op = 0xF#4) (h : decodeFamilyF op = .ok i) :
    i.row.selects op = true := by
  unfold decodeFamilyF at h
  split at h <;> cases h
  all_goals next hnn => exact selects_F0FF ht hnn (by decide)

/-! ### The decoder and the opcode map -/

/-- The row of an instruction selects every word that decodes to it: the sub-decoders for families 0, 5, 8, 9, E and
F, the family nibble alone for the others. -/
theorem decode_selects {op : Word} {i : Instr} (h : decode op = .ok i) : i.row.selects op = true := by
  unfold decode at h
  split at h
  case h_1 => exact decodeFamily0_selects h
  case h_6 ht =>
    obtain ⟨hn, rfl⟩ := (decodeLowZero_ok_iff op _ i).mp h
    exact selects_F00F ht hn (by decide)
  case h_9 ht => exact decodeFamily8_selects ht h
  case h_10 ht =>
    obtain ⟨hn, rfl⟩ := (decodeLowZero_ok_iff op _ i).mp h
    exact selects_F00F ht hn (by decide)
  case h_15 ht => exact decodeFamilyE_selects ht h
  case h_16 =>
    -- A nibble has no seventeenth value.
    have ht : fieldT op = 0xF#4 := by
      simp only [imp_false] at *
      bv_omega
    exact decodeFamilyF_selects ht h
  all_goals next ht => cases h; exact selects_F000 ht (by decide)

theorem row_mem_opcodeMap (i : Instr) : i.row ∈ opcodeMap := by
  cases i <;> simp [Instr.row, opcodeMap]

theorem wellFormedWord_of_decode {op : Word} {i : Instr} (h : decode op = .ok i) : wellFormedWord op = true :=
  List.any_eq_true.mpr ⟨i.row, row_mem_opcodeMap i, decode_selects h⟩

/-- The decoder refuses every word that no row of the opcode map selects (R76). -/
theorem decode_error_of_not_wellFormedWord {op : Word} (h : wellFormedWord op = false) :
    ∃ r, decode op = .error r := by
  cases hd : decode op with
  | error r => exact ⟨r, rfl⟩
  | ok i => exact absurd (wellFormedWord_of_decode hd) (by simp [h])

end Sys2Proof

namespace Sys2Proof.Machine

open Sys2Proof.Safety

/-! ### A cycle that reports an error -/

theorem fetch_eq_wordAtPc {s : State} (hpc : s.pc.toNat ≤ 4094) : fetch s = some (wordAtPc s) :=
  (fetch_eq_some_iff s _).mpr ⟨hpc, rfl⟩

theorem cycle_of_step_fault {s : State} {e : Fault} (h : step s = .fault e) : cycle s = .ok (s, .error e) := by
  simp [cycle, h]

theorem step_of_decode_error {s : State} {r : Reject} (hpc : s.pc.toNat ≤ 4094)
    (hd : decode (wordAtPc s) = .error r) : step s = .fault (.unknownOpcode (wordAtPc s)) :=
  (step_fault_iff s _).mpr (.inr (.inl ⟨wordAtPc s, r, fetch_eq_wordAtPc hpc, hd, rfl⟩))

/-- Settles O8: the decoder refuses the word because every word it accepts has a row, so the step faults with the
word, and a faulting cycle keeps the state. -/
theorem illegalWordIsReported : Obligations.IllegalWordIsReported := by
  intro s hpc hill
  obtain ⟨r, hd⟩ := decode_error_of_not_wellFormedWord hill
  have hstep := step_of_decode_error hpc hd
  exact ⟨hstep, cycle_of_step_fault hstep⟩

end Sys2Proof.Machine
end

section
/-! PROOFS. Control transfer (41_flow.md R110 to R112, R114 to R117): the words of those instructions, the cycle in
terms of the word at `pc`, the jump, the call stack and the skips. -/

namespace Sys2Proof

/-! ### The fields of the encoder's words (R71, R82) -/

theorem fields_wordA {t : Nibble} {bits : Nat} (nnn : Addr) (h : bits = t.toNat * 4096) :
    fieldT (wordA bits nnn) = t ∧ fieldNNN (wordA bits nnn) = nnn := by
  have := t.isLt
  have := nnn.isLt
  have hw := toNat_wordA (bits := bits) nnn (by omega)
  refine ⟨?_, ?_⟩ <;> apply BitVec.eq_of_toNat_eq
  · rw [toNat_fieldT]; omega
  · rw [toNat_fieldNNN]; omega

theorem fields_wordXI {t : Nibble} {bits : Nat} (x : Nibble) (nn : Byte) (h : bits = t.toNat * 4096) :
    fieldT (wordXI bits x nn) = t ∧ fieldX (wordXI bits x nn) = x ∧ fieldNN (wordXI bits x nn) = nn := by
  have := t.isLt
  have := x.isLt
  have := nn.isLt
  have hw := toNat_wordXI (bits := bits) x nn (by omega)
  refine ⟨?_, ?_, ?_⟩ <;> apply BitVec.eq_of_toNat_eq
  · rw [toNat_fieldT]; omega
  · rw [toNat_fieldX]; omega
  · rw [toNat_fieldNN]; omega

/-- Format `XY` with sub-opcode `n`, and format `XYN` with row count `n`. -/
theorem fields_wordXY {t n : Nibble} {bits : Nat} (x y : Nibble) (h : bits = t.toNat * 4096 + n.toNat) :
    fieldT (wordXY bits x y) = t ∧ fieldX (wordXY bits x y) = x ∧ fieldY (wordXY bits x y) = y ∧
      fieldN (wordXY bits x y) = n := by
  have := t.isLt
  have := x.isLt
  have := y.isLt
  have := n.isLt
  have hw := toNat_wordXY (bits := bits) x y (by omega)
  refine ⟨?_, ?_, ?_, ?_⟩ <;> apply BitVec.eq_of_toNat_eq
  · rw [toNat_fieldT]; omega
  · rw [toNat_fieldX]; omega
  · rw [toNat_fieldY]; omega
  · rw [toNat_fieldN]; omega

/-! ### The words of the flow instructions decode to them -/

theorem decode_encode_jp (nnn : Addr) : decode (encode (.jp nnn)) = .ok (.jp nnn) := by
  simp [encode, decode, fields_wordA (t := 1#4) (bits := 0x1000) nnn rfl]

theorem decode_encode_call (nnn : Addr) : decode (encode (.call nnn)) = .ok (.call nnn) := by
  simp [encode, decode, fields_wordA (t := 2#4) (bits := 0x2000) nnn rfl]

theorem decode_encode_seImm (x : Nibble) (nn : Byte) : decode (encode (.seImm x nn)) = .ok (.seImm x nn) := by
  simp [encode, decode, fields_wordXI (t := 3#4) (bits := 0x3000) x nn rfl]

theorem decode_encode_sneImm (x : Nibble) (nn : Byte) : decode (encode (.sneImm x nn)) = .ok (.sneImm x nn) := by
  simp [encode, decode, fields_wordXI (t := 4#4) (bits := 0x4000) x nn rfl]

theorem decode_encode_seReg (x y : Nibble) : decode (encode (.seReg x y)) = .ok (.seReg x y) := by
  simp [encode, decode, decodeLowZero_ok_iff, fields_wordXY (t := 5#4) (n := 0#4) (bits := 0x5000) x y rfl]

theorem decode_encode_sneReg (x y : Nibble) : decode (encode (.sneReg x y)) = .ok (.sneReg x y) := by
  simp [encode, decode, decodeLowZero_ok_iff, fields_wordXY (t := 9#4) (n := 0#4) (bits := 0x9000) x y rfl]

end Sys2Proof

namespace Sys2Proof.Machine

open Sys2Proof.Safety

/-! ### The cycle in terms of the word at `pc` (R90, R91) -/

theorem step_of_exec_next {s t : State} {i : Instr} (hpc : s.pc.toNat ≤ 4094) (hd : decode (wordAtPc s) = .ok i)
    (hx : exec i s = .next t) : step s = .next (tick t) :=
  (step_next_iff s _).mpr ⟨_, i, t, fetch_eq_wordAtPc hpc, hd, hx, rfl⟩

theorem cycle_of_exec_fault {s : State} {i : Instr} {e : Fault} (hpc : s.pc.toNat ≤ 4094)
    (hd : decode (wordAtPc s) = .ok i) (hx : exec i s = .fault e) : cycle s = .ok (s, .error e) :=
  cycle_of_step_fault ((step_fault_iff s e).mpr (.inr (.inr ⟨_, i, fetch_eq_wordAtPc hpc, hd, hx⟩)))

theorem step_of_pc_gt {s : State} (hpc : 4094 < s.pc.toNat) : step s = .fault .outOfBoundsAccess :=
  (step_fault_iff s _).mpr (.inl ⟨(fetch_eq_none_iff s).mpr hpc, rfl⟩)

/-- A state with the same `pc` and memory finds the same word (R54). -/
theorem wordAtPc_congr {s t : State} (hpc : t.pc = s.pc) (hmem : MemKept s t) : wordAtPc t = wordAtPc s := by
  rw [wordAtPc, wordAtPc, hpc, hmem, hmem]

/-- A word at `pc` whose number is the format `A` sum is the encoder's word (R82). -/
theorem wordAtPc_eq_wordA {s : State} {bits : Nat} {nnn : Addr} (h : bits + 4096 ≤ 65536)
    (hw : (wordAtPc s).toNat = bits + nnn.toNat) : wordAtPc s = wordA bits nnn :=
  BitVec.eq_of_toNat_eq (hw.trans (toNat_wordA nnn h).symm)

/-! ### The jump (R111) -/

@[simp] theorem toNat_addrToPc (nnn : Addr) : (addrToPc nnn).toNat = nnn.toNat := by
  have := nnn.isLt
  simp [addrToPc]
  omega

/-- Settles O26: the jump retires at `nnn` and changes nothing else, so a jump to its own address leaves `pc` and
memory, hence the word at `pc`, as they were, and only the tick is left. -/
theorem jumpSetsPc : Obligations.JumpSetsPc := by
  intro s nnn
  have hx : exec (.jp nnn) s = .next (s.retire (addrToPc nnn)) := (exec_jp_next_iff s _ nnn).mpr rfl
  refine ⟨decode_encode_jp nnn, _, hx, toNat_addrToPc nnn, fun _ _ => rfl, fun hend => ?_, fun hpc hw hself => ?_⟩
  · exact step_of_pc_gt (by simp [hend])
  · have hd : decode (wordAtPc s) = .ok (.jp nnn) := by
      rw [wordAtPc_eq_wordA (by decide) hw]
      exact decode_encode_jp nnn
    have hstay : addrToPc nnn = s.pc := BitVec.eq_of_toNat_eq (by simp [hself])
    exact ⟨_, step_of_exec_next hpc hd hx, hstay, wordAtPc_congr hstay fun _ => rfl,
      toNat_tickTimer s.dt, toNat_tickTimer s.st⟩

/-! ### The call stack (R110, R112) -/

theorem State.top_eq_get {s : State} {k : Fin 16} (hk : k.val + 1 = s.sp.val) (live : 0 < s.sp.val) :
    s.top live = s.stack.get k := by
  simp [State.top, Vector.get_eq_getElem, ← hk]

/-- 2NNN's push is read back at the depth before the call. -/
theorem State.get_push {s : State} {k : Fin 16} (hk : k.val = s.sp.val) (w : Word) (room : s.sp.val < 16) :
    (s.push w room).stack.get k = w := by
  simp [Vector.get_eq_getElem, hk]

theorem exec_ret_fault_iff (s : State) (e : Fault) :
    exec .ret s = .fault e ↔ s.sp.val = 0 ∧ e = .stackUnderflow := by
  simp only [exec, execRet]
  split
  · next live => simp [Nat.ne_of_gt live]
  · next empty => simp [raise, Nat.eq_zero_of_not_pos empty, eq_comm]

theorem exec_call_fault_iff (s : State) (nnn : Addr) (e : Fault) :
    exec (.call nnn) s = .fault e ↔ s.sp.val = 16 ∧ e = .stackOverflow := by
  have hsp := s.sp.isLt
  simp only [exec, execCall]
  split
  · next room => simp [Nat.ne_of_lt room]
  · next full => simp [raise, show s.sp.val = 16 by omega, eq_comm]

/-- Settles O25: a live entry is the one `top` reads, and the stack itself is untouched; an empty stack is the one
case that faults. -/
theorem returnGoesPastTheCall : Obligations.ReturnGoesPastTheCall := by
  intro s
  have hdec : decode 0x00EE = .ok .ret := by decide
  refine ⟨hdec, fun k hk => ?_, fun hempty => ?_⟩
  · have live : 0 < s.sp.val := by omega
    have hpc : s.top live + 2 = s.stack.get k + 2 := by rw [State.top_eq_get hk]
    refine ⟨_, (exec_ret_next_iff s _).mpr ⟨live, rfl⟩, hpc, ?_, rfl, fun _ _ => rfl, fun hlast => ?_⟩
    · simp [← hk]
    · apply step_of_pc_gt
      simp [State.top_eq_get hk, BitVec.toNat_add, hlast]
  · have hx : exec .ret s = .fault .stackUnderflow := (exec_ret_fault_iff s _).mpr ⟨hempty, rfl⟩
    exact ⟨hx, fun hpc hw => cycle_of_exec_fault hpc (hw ▸ hdec) hx⟩

/-- Settles O27: with room the call pushes its own address at the old depth; a full stack is the one case that
faults. -/
theorem callSavesItsAddress : Obligations.CallSavesItsAddress := by
  intro s nnn
  refine ⟨decode_encode_call nnn, fun k hk => ?_, fun hfull => ?_⟩
  · have room : s.sp.val < 16 := hk ▸ k.isLt
    exact ⟨_, (exec_call_next_iff s _ nnn).mpr ⟨room, rfl⟩, State.get_push hk s.pc room, by simp [hk],
      toNat_addrToPc nnn, fun _ _ => rfl⟩
  · have hx : exec (.call nnn) s = .fault .stackOverflow := (exec_call_fault_iff s nnn _).mpr ⟨hfull, rfl⟩
    refine ⟨hx, fun hpc hw => cycle_of_exec_fault hpc ?_ hx⟩
    rw [wordAtPc_eq_wordA (by decide) hw]
    exact decode_encode_call nnn

/-! ### The skips (R114 to R117) -/

/-- What a skip does, for an instruction that retires by the test `c` of the condition `P`. -/
theorem skip_completes {s : State} {i : Instr} {c : Bool} {P : Prop} [Decidable P]
    (hx : exec i s = .next (s.retire (if c then s.pc + 4 else s.pc + 2))) (hc : c = true ↔ P) :
    ∃ t, exec i s = .next t ∧ RegsKept [] s t ∧ t.pc = if P then s.pc + 4 else s.pc + 2 :=
  ⟨_, hx, fun _ _ => rfl, by simp [hc]⟩

theorem beq_iff_toNat_eq (a b : Byte) : (a == b) = true ↔ a.toNat = b.toNat :=
  beq_iff_eq.trans BitVec.toNat_inj.symm

theorem bne_iff_toNat_ne (a b : Byte) : (a != b) = true ↔ a.toNat ≠ b.toNat :=
  bne_iff_ne.trans BitVec.toNat_inj.not.symm

/-- A skip taken at 4092 lands at 4096, where nothing can be fetched (R91, R114). -/
theorem step_of_skip_at_4092 {s t : State} (hs : s.pc.toNat = 4092) (ht : t.pc = s.pc + 4) :
    step t = .fault .outOfBoundsAccess := by
  apply step_of_pc_gt
  simp [ht, BitVec.toNat_add, hs]

/-- Settles O29: the four differ in their word and their comparison, and what a skip does is said once. -/
theorem skipsCompareAndAdvance : Obligations.SkipsCompareAndAdvance := by
  intro s x y nn
  refine ⟨⟨decode_encode_seImm x nn, ?_⟩, ⟨decode_encode_sneImm x nn, ?_⟩, ⟨decode_encode_seReg x y, ?_⟩,
    ⟨decode_encode_sneReg x y, ?_⟩⟩
  · obtain ⟨t, hx, hregs, hpc⟩ :=
      skip_completes ((exec_seImm_next_iff s _ x nn).mpr rfl) (beq_iff_toNat_eq _ _)
    refine ⟨t, hx, hregs, hpc, fun hs heq => step_of_skip_at_4092 hs ?_⟩
    rw [hpc, if_pos (congrArg BitVec.toNat heq)]
  · exact skip_completes ((exec_sneImm_next_iff s _ x nn).mpr rfl) (bne_iff_toNat_ne _ _)
  · exact skip_completes ((exec_seReg_next_iff s _ x y).mpr rfl) (beq_iff_toNat_eq _ _)
  · exact skip_completes ((exec_sneReg_next_iff s _ x y).mpr rfl) (bne_iff_toNat_ne _ _)

end Sys2Proof.Machine
end

section
/-! PROOFS. Register and ALU instructions that write one register and no flag (42_alu.md R130 to R132): their words,
and what writing one register and going on does. -/

namespace Sys2Proof

/-! ### The words of the loads and of add immediate decode to them -/

theorem decode_encode_ldImm (x : Nibble) (nn : Byte) : decode (encode (.ldImm x nn)) = .ok (.ldImm x nn) := by
  simp [encode, decode, fields_wordXI (t := 6#4) (bits := 0x6000) x nn rfl]

theorem decode_encode_addImm (x : Nibble) (nn : Byte) : decode (encode (.addImm x nn)) = .ok (.addImm x nn) := by
  simp [encode, decode, fields_wordXI (t := 7#4) (bits := 0x7000) x nn rfl]

theorem decode_encode_ldReg (x y : Nibble) : decode (encode (.ldReg x y)) = .ok (.ldReg x y) := by
  simp [encode, decode, decodeFamily8, fields_wordXY (t := 8#4) (n := 0#4) (bits := 0x8000) x y rfl]

end Sys2Proof

namespace Sys2Proof.Machine

open Sys2Proof.Safety

/-! ### Writing one register (R20, R94) -/

theorem regsKept_setReg_retire (s : State) (x : Nibble) (b : Byte) (p : Word) :
    RegsKept [x] s ((s.setReg x b).retire p) := by
  intro r hr
  have hne : r ≠ x := List.ne_of_not_mem_cons hr
  simp [hne]

/-- What an instruction does that writes `b` to register `x` and goes on to the next word. -/
theorem setReg_completes {s : State} {i : Instr} {x : Nibble} {b : Byte}
    (hx : exec i s = .next ((s.setReg x b).retire (s.pc + 2))) :
    ∃ t, exec i s = .next t ∧ t.reg x = b ∧ RegsKept [x] s t ∧ t.pc = s.pc + 2 :=
  ⟨_, hx, by simp, regsKept_setReg_retire s x b _, rfl⟩

/-- Settles O31: the three differ in their word and in the byte they write; for 7XNN that byte's number is already
reduced modulo 256. -/
theorem loadsAndAddImmediate : Obligations.LoadsAndAddImmediate := by
  intro s x y nn
  refine ⟨⟨decode_encode_ldImm x nn, ?_⟩, ⟨decode_encode_addImm x nn, ?_⟩, ⟨decode_encode_ldReg x y, ?_⟩⟩
  · exact setReg_completes ((exec_ldImm_next_iff s _ x nn).mpr rfl)
  · obtain ⟨t, hx, hsum, hregs, hpc⟩ := setReg_completes ((exec_addImm_next_iff s _ x nn).mpr rfl)
    exact ⟨t, hx, by simp [hsum], hregs, hpc⟩
  · exact setReg_completes ((exec_ldReg_next_iff s _ x y).mpr rfl)

end Sys2Proof.Machine
end

section
/-! PROOFS. Instructions that set the address register (43_index_memory.md R160, R162): the fields of format `XS`,
their words, and what setting `I` and going on does. -/

namespace Sys2Proof

/-! ### The fields of format `XS` (R71, R82) -/

/-- Format `XS` with sub-opcode `b`. -/
theorem fields_wordXS {t : Nibble} {b : Byte} {bits : Nat} (x : Nibble) (h : bits = t.toNat * 4096 + b.toNat) :
    fieldT (wordXS bits x) = t ∧ fieldX (wordXS bits x) = x ∧ fieldNN (wordXS bits x) = b := by
  have := t.isLt
  have := x.isLt
  have := b.isLt
  have hw := toNat_wordXS (bits := bits) x (by omega)
  refine ⟨?_, ?_, ?_⟩ <;> apply BitVec.eq_of_toNat_eq
  · rw [toNat_fieldT]; omega
  · rw [toNat_fieldX]; omega
  · rw [toNat_fieldNN]; omega

/-! ### The words of ANNN and FX29 decode to them -/

theorem decode_encode_ldI (nnn : Addr) : decode (encode (.ldI nnn)) = .ok (.ldI nnn) := by
  simp [encode, decode, fields_wordA (t := 10#4) (bits := 0xA000) nnn rfl]

theorem decode_encode_ldFont (x : Nibble) : decode (encode (.ldFont x)) = .ok (.ldFont x) := by
  simp [encode, decode, decodeFamilyF, fields_wordXS (t := 15#4) (b := 0x29#8) (bits := 0xF029) x rfl]

end Sys2Proof

namespace Sys2Proof.Machine

open Sys2Proof.Safety

/-! ### Setting the address register (R94) -/

/-- What an instruction does that sets `I` to `a` and goes on to the next word. -/
theorem setI_completes {s : State} {i : Instr} {a : Addr}
    (hx : exec i s = .next ((s.setI a).retire (s.pc + 2))) :
    ∃ t, exec i s = .next t ∧ t.i = a ∧ RegsKept [] s t ∧ t.pc = s.pc + 2 :=
  ⟨_, hx, rfl, fun _ _ => rfl, rfl⟩

/-- The glyph of the whole byte lies below 4096, so its address is never reduced (R162). -/
theorem toNat_glyphAddr (vx : Byte) : (glyphAddr vx).toNat = 0x050 + 5 * vx.toNat := by
  have := vx.isLt
  rw [glyphAddr, Config.fontBase, BitVec.toNat_ofNat]
  omega

/-- Settles O37: the two differ in their word and in the address they set; the glyph address of the largest byte still
fits in `I`. -/
theorem settingTheAddressRegister : Obligations.SettingTheAddressRegister := by
  intro s x nnn
  refine ⟨⟨decode_encode_ldI nnn, ?_⟩, ⟨decode_encode_ldFont x, ?_⟩⟩
  · exact setI_completes ((exec_ldI_next_iff s _ nnn).mpr rfl)
  · obtain ⟨t, hx, hi, hregs, hpc⟩ := setI_completes ((exec_ldFont_next_iff s _ x).mpr rfl)
    exact ⟨t, hx, hi ▸ toNat_glyphAddr (s.reg x), hregs, hpc⟩

end Sys2Proof.Machine
end

section
/-! PROOFS. Clearing the display (44_display.md R180). -/

namespace Sys2Proof.Machine

open Sys2Proof.Safety

/-- Settles O43: 00E0 retires the cleared screen at the next word; a cleared screen has no lit pixel, and neither the
clear nor the retirement writes a register. -/
theorem clearLeavesNoPixelLit : Obligations.ClearLeavesNoPixelLit := by
  intro s
  have hdec : decode 0x00E0 = .ok .cls := by decide
  have hx : exec .cls s = .next (s.clearScreen.retire (s.pc + 2)) := (exec_cls_next_iff s _).mpr rfl
  have hregs : RegsKept [] s (s.clearScreen.retire (s.pc + 2)) := fun _ _ => rfl
  exact ⟨hdec, _, hx, lit_cleared, hregs, rfl⟩

end Sys2Proof.Machine
end

section
/-! PROOFS. Reading the delay timer (45_input_timers.md R194). -/

namespace Sys2Proof

theorem decode_encode_ldVxDt (x : Nibble) : decode (encode (.ldVxDt x)) = .ok (.ldVxDt x) := by
  simp [encode, decode, decodeFamilyF, fields_wordXS (t := 15#4) (b := 0x07#8) (bits := 0xF007) x rfl]

end Sys2Proof

namespace Sys2Proof.Machine

open Sys2Proof.Safety

/-- A word at `pc` whose number is the format `XS` sum is the encoder's word (R82). -/
theorem wordAtPc_eq_wordXS {s : State} {bits : Nat} {x : Nibble} (h : bits + 3840 < 65536)
    (hw : (wordAtPc s).toNat = bits + x.toNat * 256) : wordAtPc s = wordXS bits x :=
  BitVec.eq_of_toNat_eq (hw.trans (toNat_wordXS x h).symm)

/-- Settles O49: FX07 writes `DT` as it stands to `V[x]` and leaves the timer alone; the cycle's tick then lowers `DT`
and keeps the register. -/
theorem readingTheDelayTimer : Obligations.ReadingTheDelayTimer := by
  intro s x
  have hx : exec (.ldVxDt x) s = .next ((s.setReg x s.dt).retire (s.pc + 2)) := (exec_ldVxDt_next_iff s _ x).mpr rfl
  refine ⟨⟨decode_encode_ldVxDt x, setReg_completes hx⟩, fun hpc hw => ?_⟩
  have hd : decode (wordAtPc s) = .ok (.ldVxDt x) := by
    rw [wordAtPc_eq_wordXS (by decide) hw]
    exact decode_encode_ldVxDt x
  exact ⟨_, step_of_exec_next hpc hd hx, by simp, toNat_tickTimer s.dt⟩

end Sys2Proof.Machine
end

section
/-! PROOFS. Decoding and encoding are inverse, and the decoder accepts the opcode map (R74, R75, R82). -/

namespace Sys2Proof

/-! ### An instruction's word decodes to it -/

/-- The decoder reads back every instruction from its word: the word's fields are the operands (R71, R82), and the
family nibble, with the sub-opcode where the family has one, picks the constructor (R75). -/
theorem decode_encode (i : Instr) : decode (encode i) = .ok i := by
  cases i with
  | cls => decide
  | ret => decide
  | jp nnn => exact decode_encode_jp nnn
  | call nnn => exact decode_encode_call nnn
  | seImm x nn => exact decode_encode_seImm x nn
  | sneImm x nn => exact decode_encode_sneImm x nn
  | seReg x y => exact decode_encode_seReg x y
  | ldImm x nn => exact decode_encode_ldImm x nn
  | addImm x nn => exact decode_encode_addImm x nn
  | ldReg x y => exact decode_encode_ldReg x y
  | orReg x y => simp [encode, decode, decodeFamily8, fields_wordXY (t := 8#4) (n := 1#4) (bits := 0x8001) x y rfl]
  | andReg x y => simp [encode, decode, decodeFamily8, fields_wordXY (t := 8#4) (n := 2#4) (bits := 0x8002) x y rfl]
  | xorReg x y => simp [encode, decode, decodeFamily8, fields_wordXY (t := 8#4) (n := 3#4) (bits := 0x8003) x y rfl]
  | addReg x y => simp [encode, decode, decodeFamily8, fields_wordXY (t := 8#4) (n := 4#4) (bits := 0x8004) x y rfl]
  | sub x y => simp [encode, decode, decodeFamily8, fields_wordXY (t := 8#4) (n := 5#4) (bits := 0x8005) x y rfl]
  | shr x y => simp [encode, decode, decodeFamily8, fields_wordXY (t := 8#4) (n := 6#4) (bits := 0x8006) x y rfl]
  | subn x y => simp [encode, decode, decodeFamily8, fields_wordXY (t := 8#4) (n := 7#4) (bits := 0x8007) x y rfl]
  | shl x y => simp [encode, decode, decodeFamily8, fields_wordXY (t := 8#4) (n := 14#4) (bits := 0x800E) x y rfl]
  | sneReg x y => exact decode_encode_sneReg x y
  | ldI nnn => exact decode_encode_ldI nnn
  | jpV0 nnn => simp [encode, decode, fields_wordA (t := 11#4) (bits := 0xB000) nnn rfl]
  | rnd x nn => simp [encode, decode, fields_wordXI (t := 12#4) (bits := 0xC000) x nn rfl]
  | drw x y n => simp [encode, decode, fields_wordXY (t := 13#4) (n := n) (bits := 0xD000 + n.toNat) x y rfl]
  | skp x => simp [encode, decode, decodeFamilyE, fields_wordXS (t := 14#4) (b := 0x9E#8) (bits := 0xE09E) x rfl]
  | sknp x => simp [encode, decode, decodeFamilyE, fields_wordXS (t := 14#4) (b := 0xA1#8) (bits := 0xE0A1) x rfl]
  | ldVxDt x => exact decode_encode_ldVxDt x
  | ldVxKey x => simp [encode, decode, decodeFamilyF, fields_wordXS (t := 15#4) (b := 0x0A#8) (bits := 0xF00A) x rfl]
  | ldDtVx x => simp [encode, decode, decodeFamilyF, fields_wordXS (t := 15#4) (b := 0x15#8) (bits := 0xF015) x rfl]
  | ldStVx x => simp [encode, decode, decodeFamilyF, fields_wordXS (t := 15#4) (b := 0x18#8) (bits := 0xF018) x rfl]
  | addI x => simp [encode, decode, decodeFamilyF, fields_wordXS (t := 15#4) (b := 0x1E#8) (bits := 0xF01E) x rfl]
  | ldFont x => exact decode_encode_ldFont x
  | ldBcd x => simp [encode, decode, decodeFamilyF, fields_wordXS (t := 15#4) (b := 0x33#8) (bits := 0xF033) x rfl]
  | stRegs x => simp [encode, decode, decodeFamilyF, fields_wordXS (t := 15#4) (b := 0x55#8) (bits := 0xF055) x rfl]
  | ldRegs x => simp [encode, decode, decodeFamilyF, fields_wordXS (t := 15#4) (b := 0x65#8) (bits := 0xF065) x rfl]

/-- Settles O1, by the decoder's reading of each instruction's word. -/
theorem decodeUndoesEncode : Obligations.DecodeUndoesEncode := decode_encode

/-! ### A word that decodes is the word of what it decodes to -/

theorem wordA_of_fields {op : Word} {t : Nibble} {bits : Nat} (ht : fieldT op = t) (h : bits = t.toNat * 4096) :
    wordA bits (fieldNNN op) = op := by
  have htop := toNat_fieldT op
  have := t.isLt
  rw [ht] at htop
  apply BitVec.eq_of_toNat_eq
  rw [toNat_wordA _ (by omega), toNat_fieldNNN]
  omega

theorem wordXI_of_fields {op : Word} {t : Nibble} {bits : Nat} (ht : fieldT op = t) (h : bits = t.toNat * 4096) :
    wordXI bits (fieldX op) (fieldNN op) = op := by
  have htop := toNat_fieldT op
  have := t.isLt
  rw [ht] at htop
  apply BitVec.eq_of_toNat_eq
  rw [toNat_wordXI _ _ (by omega), toNat_fieldX, toNat_fieldNN]
  omega

theorem wordXY_of_fields {op : Word} {t n : Nibble} {bits : Nat} (ht : fieldT op = t) (hn : fieldN op = n)
    (h : bits = t.toNat * 4096 + n.toNat) : wordXY bits (fieldX op) (fieldY op) = op := by
  have htop := toNat_fieldT op
  have hlow := toNat_fieldN op
  have := t.isLt
  have := n.isLt
  rw [ht] at htop
  rw [hn] at hlow
  apply BitVec.eq_of_toNat_eq
  rw [toNat_wordXY _ _ (by omega), toNat_fieldX, toNat_fieldY]
  omega

theorem wordXS_of_fields {op : Word} {t : Nibble} {b : Byte} {bits : Nat} (ht : fieldT op = t) (hb : fieldNN op = b)
    (h : bits = t.toNat * 4096 + b.toNat) : wordXS bits (fieldX op) = op := by
  have htop := toNat_fieldT op
  have hlow := toNat_fieldNN op
  have := t.isLt
  have := b.isLt
  rw [ht] at htop
  rw [hb] at hlow
  apply BitVec.eq_of_toNat_eq
  rw [toNat_wordXS _ (by omega), toNat_fieldX]
  omega

theorem encode_of_decodeFamily0 {op : Word} {i : Instr} (h : decodeFamily0 op = .ok i) : encode i = op := by
  unfold decodeFamily0 at h
  split at h
  · next hop => cases h; exact hop.symm
  split at h
  · next hop => cases h; exact hop.symm
  · cases h

theorem encode_of_decodeFamily8 {op : Word} {i : Instr} (ht : fieldT op = 0x8#4) (h : decodeFamily8 op = .ok i) :
    encode i = op := by
  unfold decodeFamily8 at h
  split at h <;> cases h
  all_goals next hn => exact wordXY_of_fields ht hn rfl

theorem encode_of_decodeFamilyE {op : Word} {i : Instr} (ht : fieldT op = 0xE#4) (h : decodeFamilyE op = .ok i) :
    encode i = op := by
  unfold decodeFamilyE at h
  split at h <;> cases h
  all_goals next hnn => exact wordXS_of_fields ht hnn rfl

theorem encode_of_decodeFamilyF {op : Word} {i : Instr} (ht : fieldT op = 0xF#4) (h : decodeFamilyF op = .ok i) :
    encode i = op := by
  unfold decodeFamilyF at h
  split at h <;> cases h
  all_goals next hnn => exact wordXS_of_fields ht hnn rfl

/-- Settles O2: within its family an accepted word is put together again from the fields the decoder read. -/
theorem encodeUndoesDecode : Obligations.EncodeUndoesDecode := by
  intro op i h
  unfold decode at h
  split at h
  case h_1 => exact encode_of_decodeFamily0 h
  case h_6 ht =>
    obtain ⟨hn, rfl⟩ := (decodeLowZero_ok_iff op _ i).mp h
    exact wordXY_of_fields ht hn rfl
  case h_9 ht => exact encode_of_decodeFamily8 ht h
  case h_10 ht =>
    obtain ⟨hn, rfl⟩ := (decodeLowZero_ok_iff op _ i).mp h
    exact wordXY_of_fields ht hn rfl
  case h_14 ht =>
    cases h
    exact wordXY_of_fields ht rfl rfl
  case h_15 ht => exact encode_of_decodeFamilyE ht h
  case h_16 =>
    -- A nibble has no seventeenth value.
    have ht : fieldT op = 0xF#4 := by
      simp only [imp_false] at *
      bv_omega
    exact encode_of_decodeFamilyF ht h
  case h_2 ht => cases h; exact wordA_of_fields ht rfl
  case h_3 ht => cases h; exact wordA_of_fields ht rfl
  case h_11 ht => cases h; exact wordA_of_fields ht rfl
  case h_12 ht => cases h; exact wordA_of_fields ht rfl
  all_goals next ht => cases h; exact wordXI_of_fields ht rfl

/-! ### The decoder accepts what the opcode map accepts, and nothing else -/

/-- The rows of mask 0xF000 fix the family nibble of the words they select (R74). -/
theorem fields_of_selects_F000 {bits op : Word} (h : Row.selects ⟨0xF000, bits⟩ op = true) :
    fieldT op = fieldT bits := by
  have hsel : op &&& 0xF000#16 = bits := beq_iff_eq.mp h
  have hmask := toNat_mask_F000 op
  rw [hsel] at hmask
  apply BitVec.eq_of_toNat_eq
  rw [toNat_fieldT, toNat_fieldT]
  omega

/-- The rows of mask 0xF00F fix the family nibble and the low nibble. -/
theorem fields_of_selects_F00F {bits op : Word} (h : Row.selects ⟨0xF00F, bits⟩ op = true) :
    fieldT op = fieldT bits ∧ fieldN op = fieldN bits := by
  have hsel : op &&& 0xF00F#16 = bits := beq_iff_eq.mp h
  have hmask := toNat_mask_F00F op
  rw [hsel] at hmask
  constructor <;> apply BitVec.eq_of_toNat_eq
  · rw [toNat_fieldT, toNat_fieldT]; omega
  · rw [toNat_fieldN, toNat_fieldN]; omega

/-- The rows of mask 0xF0FF fix the family nibble and the low byte. -/
theorem fields_of_selects_F0FF {bits op : Word} (h : Row.selects ⟨0xF0FF, bits⟩ op = true) :
    fieldT op = fieldT bits ∧ fieldNN op = fieldNN bits := by
  have hsel : op &&& 0xF0FF#16 = bits := beq_iff_eq.mp h
  have hmask := toNat_mask_F0FF op
  rw [hsel] at hmask
  constructor <;> apply BitVec.eq_of_toNat_eq
  · rw [toNat_fieldT, toNat_fieldT]; omega
  · rw [toNat_fieldNN, toNat_fieldNN]; omega

/-- The opcode map by its four masks. -/
theorem opcodeMap_by_mask : ∀ r ∈ opcodeMap,
    (r.mask = 0xFFFF ∧ r.bits ∈ ([0x00E0, 0x00EE] : List Word)) ∨
    (r.mask = 0xF000 ∧ r.bits ∈ ([0x1000, 0x2000, 0x3000, 0x4000, 0x6000, 0x7000, 0xA000, 0xB000, 0xC000,
      0xD000] : List Word)) ∨
    (r.mask = 0xF00F ∧ r.bits ∈ ([0x5000, 0x8000, 0x8001, 0x8002, 0x8003, 0x8004, 0x8005, 0x8006, 0x8007, 0x800E,
      0x9000] : List Word)) ∨
    (r.mask = 0xF0FF ∧ r.bits ∈ ([0xE09E, 0xE0A1, 0xF007, 0xF00A, 0xF015, 0xF018, 0xF01E, 0xF029, 0xF033, 0xF055,
      0xF065] : List Word)) := by
  decide

/-- A word some row selects decodes: the fields the row's mask fixes lead the decoder to an instruction. -/
theorem decode_ok_of_selects {r : Row} {op : Word} (hr : r ∈ opcodeMap) (h : r.selects op = true) :
    ∃ i, decode op = .ok i := by
  have hmask := opcodeMap_by_mask r hr
  obtain ⟨mask, bits⟩ := r
  obtain ⟨rfl, hb⟩ | ⟨rfl, hb⟩ | ⟨rfl, hb⟩ | ⟨rfl, hb⟩ := hmask
  · have hop : op = bits := BitVec.and_allOnes.symm.trans (beq_iff_eq.mp h)
    subst hop
    fin_cases hb <;> exact ⟨_, rfl⟩
  · rw [decode, fields_of_selects_F000 h]
    fin_cases hb <;> exact ⟨_, rfl⟩
  · obtain ⟨ht, hn⟩ := fields_of_selects_F00F h
    simp only [decode, decodeLowZero, decodeFamily8, ht, hn]
    fin_cases hb <;> exact ⟨_, rfl⟩
  · obtain ⟨ht, hnn⟩ := fields_of_selects_F0FF h
    simp only [decode, decodeFamilyE, decodeFamilyF, ht, hnn]
    fin_cases hb <;> exact ⟨_, rfl⟩

/-- No word is selected by two rows: any two rows differ in a bit that both masks keep. -/
theorem opcodeMap_disjoint : ∀ r ∈ opcodeMap, ∀ r' ∈ opcodeMap, r.bits &&& r'.mask = r'.bits &&& r.mask → r = r' := by
  decide

theorem eq_of_selects {r r' : Row} {op : Word} (hr : r ∈ opcodeMap) (hr' : r' ∈ opcodeMap)
    (h : r.selects op = true) (h' : r'.selects op = true) : r = r' := by
  rw [Row.selects, beq_iff_eq] at h h'
  apply opcodeMap_disjoint r hr r' hr'
  rw [← h, ← h', BitVec.and_assoc, BitVec.and_assoc, BitVec.and_comm r.mask]

/-- Settles O3: a selected word decodes by the fields its row fixes, and an accepted word is selected by its
instruction's row, hence by no other. -/
theorem decoderAcceptsTheOpcodeMap : Obligations.DecoderAcceptsTheOpcodeMap := by
  refine fun op => ⟨⟨fun hwf => ?_, fun ⟨i, h⟩ => wellFormedWord_of_decode h⟩, fun i h r hr => ⟨fun hsel => ?_, ?_⟩⟩
  · obtain ⟨r, hr, hsel⟩ := List.any_eq_true.mp hwf
    exact decode_ok_of_selects hr hsel
  · exact eq_of_selects hr (row_mem_opcodeMap i) hsel (decode_selects h)
  · rintro rfl
    exact decode_selects h

/-- Settles O4, by running the decoder on each word. -/
theorem patternWordsDecode : Obligations.PatternWordsDecode := by
  unfold Obligations.PatternWordsDecode
  decide

end Sys2Proof
end

section
/-! PROOFS. What a completed instruction wrote: the updates of the state, and the instructions that make each. -/

namespace Sys2Proof.Machine

/-! ### The updates, with the instructions that make them (R95, decision D3) -/

/-- `Wrote s i t`: from `s`, instruction `i` completed at `t`, by an update of the state that `i` makes. One
constructor per kind of update; `exec_wrote` says that these are all. -/
inductive Wrote (s : State) : Instr → State → Prop
  | jump {i nnn p} (hi : i ∈ [.jp nnn, .jpV0 nnn]) (hp : p.toNat ≤ 0x10FE) : Wrote s i (s.retire p)
  | skip {i x y nn} (c : Bool)
      (hi : i ∈ [.seImm x nn, .sneImm x nn, .seReg x y, .sneReg x y, .skp x, .sknp x]) :
      Wrote s i (s.retire (if c then s.pc + 4 else s.pc + 2))
  | call {nnn} (room : s.sp.val < 16) : Wrote s (.call nnn) ((s.push s.pc room).retire (addrToPc nnn))
  | ret (live : 0 < s.sp.val) : Wrote s .ret (s.drop.retire (s.top live + 2))
  | reg {i x y nn} (b : Byte)
      (hi : i ∈ [.ldImm x nn, .addImm x nn, .ldReg x y, .orReg x y, .andReg x y, .xorReg x y, .ldVxDt x, .ldVxKey x]) :
      Wrote s i ((s.setReg x b).retire (s.pc + 2))
  | rnd {x nn} : Wrote s (.rnd x nn) ((s.consumeDraw.setReg x (s.draw &&& nn)).retire (s.pc + 2))
  | await {x} : Wrote s (.ldVxKey x) s.awaitKey
  | flag {i x y} (f r : Byte) (hi : i ∈ [.addReg x y, .sub x y, .shr x y, .subn x y, .shl x y]) :
      Wrote s i ((s.write2 x f r).retire (s.pc + 2))
  | addr {i x nnn} (a : Addr) (hi : i ∈ [.ldI nnn, .addI x, .ldFont x]) : Wrote s i ((s.setI a).retire (s.pc + 2))
  | store {i x} (ws : List Byte) (hi : i ∈ [.ldBcd x, .stRegs x]) (hin : s.effAddr 0 + ws.length ≤ 4096) :
      Wrote s i ((s.storeBytes (s.effAddr 0) ws).retire (s.pc + 2))
  | load {x} : Wrote s (.ldRegs x) ((s.loadRegsFrom (s.effAddr 0) (List.range (x.toNat + 1))).retire (s.pc + 2))
  | clear : Wrote s .cls (s.clearScreen.retire (s.pc + 2))
  | draw {x y n} (d : Drawing) : Wrote s (.drw x y n) ((s.commitDrawing d).retire (s.pc + 2))
  | delay {x} : Wrote s (.ldDtVx x) ((s.setDt (s.reg x)).retire (s.pc + 2))
  | sound {x} : Wrote s (.ldStVx x) ((s.setSt (s.reg x)).retire (s.pc + 2))

/-- BNNN's sum of 16-bit numbers never wraps (R113). -/
theorem toNat_addrToPc_add (nnn : Addr) (b : Byte) : (addrToPc nnn + byteToWord b).toNat = nnn.toNat + b.toNat := by
  have := nnn.isLt
  have := b.isLt
  simp [byteToWord, BitVec.toNat_add]
  omega

theorem length_bcdDigits (b : Byte) : (bcdDigits b).length = 3 := rfl

theorem length_lowRegs (s : State) (x : Nibble) : (s.lowRegs x).length = x.toNat + 1 := by
  simp [State.lowRegs]

theorem add_le_of_inRange {a n : Nat} (h : inRange a n = true) (hn : 0 < n) : a + n ≤ 4096 :=
  ((inRange_iff a n).mp h).resolve_left (by omega)

/-- Every completed instruction made one of the updates of `Wrote`. -/
theorem exec_wrote {i : Instr} {s t : State} (h : exec i s = .next t) : Wrote s i t := by
  cases i with
  | cls => exact (exec_cls_next_iff s t).mp h ▸ .clear
  | ret =>
    obtain ⟨live, rfl⟩ := (exec_ret_next_iff s t).mp h
    exact .ret live
  | jp nnn =>
    have := nnn.isLt
    exact (exec_jp_next_iff s t nnn).mp h ▸ .jump (nnn := nnn) (by simp) (by rw [toNat_addrToPc]; omega)
  | call nnn =>
    obtain ⟨room, rfl⟩ := (exec_call_next_iff s t nnn).mp h
    exact .call room
  | seImm x nn => exact (exec_seImm_next_iff s t x nn).mp h ▸ .skip (x := x) (y := x) (nn := nn) _ (by simp)
  | sneImm x nn => exact (exec_sneImm_next_iff s t x nn).mp h ▸ .skip (x := x) (y := x) (nn := nn) _ (by simp)
  | seReg x y => exact (exec_seReg_next_iff s t x y).mp h ▸ .skip (x := x) (y := y) (nn := 0) _ (by simp)
  | sneReg x y => exact (exec_sneReg_next_iff s t x y).mp h ▸ .skip (x := x) (y := y) (nn := 0) _ (by simp)
  | skp x => exact (exec_skp_next_iff s t x).mp h ▸ .skip (x := x) (y := x) (nn := 0) _ (by simp)
  | sknp x => exact (exec_sknp_next_iff s t x).mp h ▸ .skip (x := x) (y := x) (nn := 0) _ (by simp)
  | ldImm x nn => exact (exec_ldImm_next_iff s t x nn).mp h ▸ .reg (y := x) (nn := nn) _ (by simp)
  | addImm x nn => exact (exec_addImm_next_iff s t x nn).mp h ▸ .reg (y := x) (nn := nn) _ (by simp)
  | ldReg x y => exact (exec_ldReg_next_iff s t x y).mp h ▸ .reg (y := y) (nn := 0) _ (by simp)
  | orReg x y => exact (exec_orReg_next_iff s t x y).mp h ▸ .reg (y := y) (nn := 0) _ (by simp)
  | andReg x y => exact (exec_andReg_next_iff s t x y).mp h ▸ .reg (y := y) (nn := 0) _ (by simp)
  | xorReg x y => exact (exec_xorReg_next_iff s t x y).mp h ▸ .reg (y := y) (nn := 0) _ (by simp)
  | ldVxDt x => exact (exec_ldVxDt_next_iff s t x).mp h ▸ .reg (y := x) (nn := 0) _ (by simp)
  | ldVxKey x =>
    obtain ⟨k, -, rfl⟩ | ⟨-, rfl⟩ := (exec_ldVxKey_next_iff s t x).mp h
    · exact .reg (y := x) (nn := 0) _ (by simp)
    · exact .await
  | addReg x y => exact (exec_addReg_next_iff s t x y).mp h ▸ .flag (y := y) _ _ (by simp)
  | sub x y => exact (exec_sub_next_iff s t x y).mp h ▸ .flag (y := y) _ _ (by simp)
  | shr x y => exact (exec_shr_next_iff s t x y).mp h ▸ .flag (y := y) _ _ (by simp)
  | subn x y => exact (exec_subn_next_iff s t x y).mp h ▸ .flag (y := y) _ _ (by simp)
  | shl x y => exact (exec_shl_next_iff s t x y).mp h ▸ .flag (y := y) _ _ (by simp)
  | ldI nnn => exact (exec_ldI_next_iff s t nnn).mp h ▸ .addr (x := 0) (nnn := nnn) _ (by simp)
  | addI x => exact (exec_addI_next_iff s t x).mp h ▸ .addr (x := x) (nnn := 0) _ (by simp)
  | ldFont x => exact (exec_ldFont_next_iff s t x).mp h ▸ .addr (x := x) (nnn := 0) _ (by simp)
  | jpV0 nnn =>
    have := nnn.isLt
    have := (s.reg 0).isLt
    exact (exec_jpV0_next_iff s t nnn).mp h ▸ .jump (nnn := nnn) (by simp) (by rw [toNat_addrToPc_add]; omega)
  | rnd x nn => exact (exec_rnd_next_iff s t x nn).mp h ▸ .rnd
  | drw x y n =>
    obtain ⟨-, rfl⟩ := (exec_drw_next_iff s t x y n).mp h
    exact .draw _
  | ldDtVx x => exact (exec_ldDtVx_next_iff s t x).mp h ▸ .delay
  | ldStVx x => exact (exec_ldStVx_next_iff s t x).mp h ▸ .sound
  | ldBcd x =>
    obtain ⟨hin, rfl⟩ := (exec_ldBcd_next_iff s t x).mp h
    exact .store (x := x) _ (by simp) (add_le_of_inRange (n := 3) hin (by decide))
  | stRegs x =>
    obtain ⟨hin, rfl⟩ := (exec_stRegs_next_iff s t x).mp h
    refine .store (x := x) _ (by simp) ?_
    rw [length_lowRegs]
    exact add_le_of_inRange hin (by omega)
  | ldRegs x =>
    obtain ⟨-, rfl⟩ := (exec_ldRegs_next_iff s t x).mp h
    exact .load

end Sys2Proof.Machine
end

section
/-! PROOFS. Which instructions write each part of the state (R21, R24, R31, R51, R95, R197). -/

namespace Sys2Proof.Machine

variable {s t : State} {i : Instr}

/-! ### One clause per part of the state, from the updates -/

/-- The instructions that can write `V[r]` (R21, R26). -/
def WritesReg (i : Instr) (r : Nibble) : Prop :=
  (∃ nn, i = .ldImm r nn ∨ i = .addImm r nn ∨ i = .rnd r nn) ∨
  (∃ y, i = .ldReg r y ∨ i = .orReg r y ∨ i = .andReg r y ∨ i = .xorReg r y ∨ i = .addReg r y ∨
    i = .sub r y ∨ i = .shr r y ∨ i = .subn r y ∨ i = .shl r y) ∨
  i = .ldVxDt r ∨ i = .ldVxKey r ∨ (∃ x, i = .ldRegs x ∧ r.toNat ≤ x.toNat) ∨
  (r = 15 ∧ ((∃ x y, i = .addReg x y ∨ i = .sub x y ∨ i = .shr x y ∨ i = .subn x y ∨ i = .shl x y) ∨
    ∃ x y n, i = .drw x y n))

/-- The instructions that can leave `pc` at `p`, when `p` is not the next word's address (R24). -/
def MovesPc (i : Instr) (pc p : Word) : Prop :=
  (i = .ret ∨ ∃ nnn, i = .jp nnn ∨ i = .call nnn ∨ i = .jpV0 nnn) ∨
  (p = pc + 4 ∧ ((∃ x nn, i = .seImm x nn ∨ i = .sneImm x nn) ∨
    (∃ x y, i = .seReg x y ∨ i = .sneReg x y) ∨ ∃ x, i = .skp x ∨ i = .sknp x)) ∨
  (p = pc ∧ ∃ x, i = .ldVxKey x)

theorem Wrote.writesReg (hw : Wrote s i t) {r : Nibble} (hne : t.reg r ≠ s.reg r) : WritesReg i r := by
  cases hw with
  | @reg i x y nn b hi =>
    have hrx : r = x := by
      by_contra h
      simp [h] at hne
    subst hrx
    fin_cases hi <;> simp [WritesReg]
  | @rnd x nn =>
    have hrx : r = x := by
      by_contra h
      simp [h] at hne
    simp [WritesReg, hrx]
  | @flag i x y f b hi =>
    have hr : r = x ∨ r = 15 := by
      by_contra h
      obtain ⟨hx, h15⟩ := not_or.mp h
      exact hne (by rw [State.retire_reg, State.reg_write2, if_neg hx]; exact if_neg h15)
    obtain rfl | rfl := hr <;> fin_cases hi <;> simp [WritesReg]
  | @load x =>
    have hle : r.toNat ≤ x.toNat := by
      by_contra h
      have hks : ∀ k ∈ List.range (x.toNat + 1), k < 16 := fun k hk => by
        have := x.isLt
        have := List.mem_range.mp hk
        omega
      rw [State.retire_reg, State.reg_loadRegsFrom s _ _ hks, if_neg (by simpa using h)] at hne
      exact hne rfl
    simp [WritesReg, hle]
  | draw d =>
    have hr : r = 15 := by
      by_contra h
      exact hne ((State.reg_commitDrawing s d r).trans (if_neg h))
    simp [WritesReg, hr]
  | _ => exact absurd rfl hne

theorem Wrote.movesPc (hw : Wrote s i t) (hne : t.pc ≠ s.pc + 2) : MovesPc i s.pc t.pc := by
  cases hw with
  | jump hi => fin_cases hi <;> simp [MovesPc]
  | skip c hi =>
    cases c with
    | false => exact absurd rfl hne
    | true => fin_cases hi <;> simp [MovesPc]
  | call room => simp [MovesPc]
  | ret live => simp [MovesPc]
  | await => simp [MovesPc]
  | _ => exact absurd rfl hne

theorem Wrote.mode_of_ne (hw : Wrote s i t) (hne : t.mode ≠ .normal) : ∃ x, i = .ldVxKey x := by
  cases hw with
  | await => exact ⟨_, rfl⟩
  | _ => exact absurd rfl hne

theorem Wrote.fb_of_ne (hw : Wrote s i t) (hne : t.fb ≠ s.fb) : i = .cls ∨ ∃ x y n, i = .drw x y n := by
  cases hw with
  | clear => exact .inl rfl
  | draw d => exact .inr ⟨_, _, _, rfl⟩
  | _ => exact absurd rfl hne

theorem Wrote.mem_of_ne (hw : Wrote s i t) (hne : t.mem ≠ s.mem) : ∃ x, i = .ldBcd x ∨ i = .stRegs x := by
  cases hw with
  | store ws hi => fin_cases hi <;> simp
  | _ => exact absurd rfl hne

theorem Wrote.i_of_ne (hw : Wrote s i t) (hne : t.i ≠ s.i) :
    (∃ nnn, i = .ldI nnn) ∨ ∃ x, i = .addI x ∨ i = .ldFont x := by
  cases hw with
  | addr a hi => fin_cases hi <;> simp
  | _ => exact absurd rfl hne

theorem Wrote.stack_of_ne (hw : Wrote s i t) (hne : t.stack ≠ s.stack) : ∃ nnn, i = .call nnn := by
  cases hw with
  | call room => exact ⟨_, rfl⟩
  | _ => exact absurd rfl hne

theorem Wrote.sp_of_ne (hw : Wrote s i t) (hne : t.sp ≠ s.sp) : i = .ret ∨ ∃ nnn, i = .call nnn := by
  cases hw with
  | call room => exact .inr ⟨_, rfl⟩
  | ret live => exact .inl rfl
  | _ => exact absurd rfl hne

theorem Wrote.dt_of_ne (hw : Wrote s i t) (hne : t.dt ≠ s.dt) : ∃ x, i = .ldDtVx x := by
  cases hw with
  | delay => exact ⟨_, rfl⟩
  | _ => exact absurd rfl hne

theorem Wrote.st_of_ne (hw : Wrote s i t) (hne : t.st ≠ s.st) : ∃ x, i = .ldStVx x := by
  cases hw with
  | sound => exact ⟨_, rfl⟩
  | _ => exact absurd rfl hne

theorem Wrote.draws_of_ne (hw : Wrote s i t) (hne : t.draws ≠ s.draws) : ∃ x nn, i = .rnd x nn := by
  cases hw with
  | rnd => exact ⟨_, _, rfl⟩
  | _ => exact absurd rfl hne

theorem Wrote.key_eq (hw : Wrote s i t) : t.key = s.key := by
  cases hw <;> rfl

theorem Wrote.edge_eq (hw : Wrote s i t) : t.edge = s.edge := by
  cases hw <;> rfl

/-- Settles O19, clause by clause from the update the instruction made. -/
theorem closedEffects : Obligations.ClosedEffects := by
  intro i s t h
  have hw := exec_wrote h
  exact ⟨fun _ => hw.writesReg, hw.movesPc, hw.mode_of_ne, hw.fb_of_ne, hw.mem_of_ne, hw.i_of_ne, hw.stack_of_ne,
    hw.sp_of_ne, hw.dt_of_ne, hw.st_of_ne, hw.draws_of_ne, hw.key_eq⟩

/-- Settles O20: the writers of register 15, with the largest block load the only one that reaches it. -/
theorem whoWritesTheFlag : Obligations.WhoWritesTheFlag := by
  intro i s t h hne
  obtain hnn | ⟨y, hld | hor | hand | hxor | hflag⟩ | hdt | hkey | ⟨x, rfl, hx⟩ | ⟨-, hflag | hdraw⟩ :=
    (exec_wrote h).writesReg hne
  · exact .inr (.inr (.inl hnn))
  · simp [hld]
  · simp [hor]
  · simp [hand]
  · simp [hxor]
  · exact .inl ⟨15, y, hflag⟩
  · simp [hdt]
  · simp [hkey]
  · have hx15 : x = 15 := by bv_omega
    simp [hx15]
  · exact .inl hflag
  · exact .inr (.inl hdraw)

/-- Settles O21: only a waiting FX0A leaves `MODE` at `AwaitingKey`, and it waits when the latch shows no key. -/
theorem whenTheMachineAwaitsAKey : Obligations.WhenTheMachineAwaitsAKey := by
  intro i s t h
  constructor
  · intro hmode
    obtain ⟨x, rfl⟩ := (exec_wrote h).mode_of_ne (by simp [hmode])
    refine ⟨⟨x, rfl⟩, s.leastKey_eq_none_iff.mp ?_⟩
    obtain ⟨k, -, rfl⟩ | ⟨hnone, -⟩ := (exec_ldVxKey_next_iff s t x).mp h
    · cases hmode
    · exact hnone
  · rintro ⟨⟨x, rfl⟩, hkeys⟩
    obtain ⟨k, hk, -⟩ | ⟨-, rfl⟩ := (exec_ldVxKey_next_iff s t x).mp h
    · rw [s.leastKey_eq_none_iff.mpr hkeys] at hk
      cases hk
    · rfl

end Sys2Proof.Machine
end

section
/-! PROOFS. The invariant: reset and `load` establish it, every cycle and every interaction keeps it (R23, R32, R50,
R245, R248). -/

namespace Sys2Proof.Machine

open Sys2Proof.Safety

variable {s t : State} {i : Instr}

/-! ### Each part of the invariant, over one instruction -/

theorem Wrote.wf_mem (hw : Wrote s i t) (hmem : Mem.wf s.mem = true) : Mem.wf t.mem = true := by
  cases hw with
  | store ws _ hin => exact Mem.wf_writeList hin hmem
  | _ => exact hmem

/-- A live stack entry is some entry below the depth, so what holds of those holds of the top. -/
theorem State.top_le (live : 0 < s.sp.val) {b : Nat} (h : ∀ k : Fin 16, k.val < s.sp.val → (s.stack.get k).toNat ≤ b) :
    (s.top live).toNat ≤ b := by
  have := s.sp.isLt
  exact h ⟨s.sp.val - 1, by omega⟩ (Nat.sub_lt live Nat.one_pos)

/-- Past an address that can be fetched the default advance stays below the largest indexed jump. -/
theorem toNat_add_two_le {w : Word} (h : w.toNat ≤ 4094) : (w + 2).toNat ≤ 0x10FE := by
  simp [BitVec.toNat_add]
  omega

/-- From a fetched instruction the next `pc` is at most the largest indexed jump's (R23, decision D1). -/
theorem Wrote.pc_le (hw : Wrote s i t) (hpc : s.pc.toNat ≤ 4094)
    (hstack : ∀ k : Fin 16, k.val < s.sp.val → (s.stack.get k).toNat ≤ 4094) : t.pc.toNat ≤ 0x10FE := by
  cases hw with
  | jump _ hp => exact hp
  | skip c => cases c <;> simp [BitVec.toNat_add] <;> omega
  | @call nnn room =>
    have := nnn.isLt
    simp only [State.retire_pc, toNat_addrToPc]
    omega
  | ret live => exact toNat_add_two_le (State.top_le live hstack)
  | await => exact hpc.trans (by decide)
  | _ => exact toNat_add_two_le hpc

/-- A pushed entry reads as pushed, every other entry as before. -/
theorem State.get_push_stack (w : Word) (room : s.sp.val < 16) (k : Fin 16) :
    (s.push w room).stack.get k = if k.val = s.sp.val then w else s.stack.get k := by
  simp [Vector.get_eq_getElem, Vector.getElem_set, eq_comm]

/-- Live entries are addresses of fetched instructions: a call pushes its own (R112). -/
theorem Wrote.stack_le (hw : Wrote s i t) (hpc : s.pc.toNat ≤ 4094)
    (hstack : ∀ k : Fin 16, k.val < s.sp.val → (s.stack.get k).toNat ≤ 4094) :
    ∀ k : Fin 16, k.val < t.sp.val → (t.stack.get k).toNat ≤ 4094 := by
  cases hw with
  | call room =>
    intro k hk
    rw [State.retire_stack, State.get_push_stack]
    split
    · exact hpc
    · next hne =>
      simp only [State.retire_sp, State.push_sp_val] at hk
      exact hstack k (by omega)
  | ret live => exact fun k hk => hstack k (Nat.lt_of_lt_of_le hk (Nat.sub_le _ _))
  | _ => exact hstack

/-! ### Cycles and interactions -/

/-- Settles O12: each part of the invariant is kept by whatever update the instruction made, and the tick writes none
of them. -/
theorem everyCycleKeepsInv : Obligations.EveryCycleKeepsInv := by
  rintro s u ⟨hmem, -, hstack⟩ hstep
  obtain ⟨op, i, t, hfetch, -, hx, rfl⟩ := (step_next_iff s u).mp hstep
  have hpc : s.pc.toNat ≤ 4094 := ((fetch_eq_some_iff s op).mp hfetch).1
  have hw := exec_wrote hx
  exact ⟨hw.wf_mem hmem, hw.pc_le hpc hstack, hw.stack_le hpc hstack⟩

/-- Settles O13, by evaluating the reset state. -/
theorem resetMeetsInv : Obligations.ResetMeetsInv :=
  ⟨Mem.wf_nil, by decide, fun _ hk => absurd hk (Nat.not_lt_zero _)⟩

/-- The state `load` makes of a ROM that fits (R240). -/
def loadedState (font : Vector Byte 80) (rom : List Byte) : State :=
  { State.reset with mem := Mem.writeList (Mem.writeList [] Config.fontBase font.toList) Config.progBase rom }

theorem load_ok_iff (font : Vector Byte 80) (rom : List Byte) (s : State) :
    load font rom = .ok s ↔ rom.length ≤ 3584 ∧ s = loadedState font rom := by
  unfold load
  split <;> rename_i h <;> simp only [Config.romMax, gt_iff_lt, not_lt] at h
  · simp [Nat.not_le.mpr h]
  · simp [h, loadedState, eq_comm]

theorem coreInv_of_load {font : Vector Byte 80} {rom : List Byte} (h : load font rom = .ok s) : CoreInv s := by
  obtain ⟨hlen, rfl⟩ := (load_ok_iff font rom s).mp h
  obtain ⟨-, hpc, hstack⟩ := resetMeetsInv
  have hfont : Mem.wf (Mem.writeList [] Config.fontBase font.toList) = true :=
    Mem.wf_writeList (by simp [Config.fontBase]) Mem.wf_nil
  exact ⟨Mem.wf_writeList (by simp only [Config.progBase]; omega) hfont, hpc, hstack⟩

/-- A cycle that answers has completed, or has kept the state. -/
theorem cycle_ok_cases {o : CycleOutcome} (h : cycle s = .ok (t, o)) : step s = .next t ∨ t = s := by
  unfold cycle at h
  split at h
  · next hstep => cases h; exact .inl hstep
  · next hstep => cases h; exact .inr rfl
  · cases h

theorem coreInv_of_cycle {o : CycleOutcome} (hinv : CoreInv s) (h : cycle s = .ok (t, o)) : CoreInv t := by
  obtain hstep | rfl := cycle_ok_cases h
  · exact everyCycleKeepsInv s t hinv hstep
  · exact hinv

/-- Where the host writes the key latch or reads an output, the invariant's components stay. -/
theorem sessionInv_of_interactRunning {a : Action} {σ : Session} {ans : Answer} (hinv : CoreInv s)
    (h : interactRunning s a = .ok (σ, ans)) : SessionInv σ := by
  cases a with
  | load rom => cases h
  | step =>
    simp only [interactRunning] at h
    split at h
    · next hcycle => cases h; exact coreInv_of_cycle hinv hcycle
    · cases h
  | setKey k pressed =>
    simp only [interactRunning] at h
    split at h <;> cases h
    exact hinv
  | _ => cases h; exact hinv

theorem sessionInv_of_interactUnloaded {font : Vector Byte 80} {a : Action} {σ : Session} {ans : Answer}
    (h : interactUnloaded font a = .ok (σ, ans)) : SessionInv σ := by
  cases a with
  | load rom =>
    simp only [interactUnloaded] at h
    split at h <;> cases h
    · next hload => exact coreInv_of_load hload
    · trivial
  | _ => cases h

theorem sessionInv_of_interact {font : Vector Byte 80} {a : Action} {σ σ' : Session} {ans : Answer}
    (hinv : SessionInv σ) (h : interact font σ a = .ok (σ', ans)) : SessionInv σ' := by
  cases σ with
  | unloaded => exact sessionInv_of_interactUnloaded h
  | loadFailed => cases h
  | running s => exact sessionInv_of_interactRunning hinv h

/-- Settles O14: one interaction keeps the invariant, by the state of the machine's life it meets; a run does by
induction on the interactions. -/
theorem everyInteractionKeepsInv : Obligations.EveryInteractionKeepsInv := by
  intro font σ σ' hinv
  refine ⟨fun a ans h => sessionInv_of_interact hinv h, fun actions => ?_⟩
  induction actions generalizing σ with
  | nil =>
    intro answers h
    cases h
    exact hinv
  | cons a rest ih =>
    intro answers h
    obtain ⟨τ, ans, more, ha, hrest, -⟩ := (run_cons_ok_iff font σ σ' a rest answers).mp h
    exact ih τ (sessionInv_of_interact hinv ha) more hrest

end Sys2Proof.Machine
end

section
/-! PROOFS. The cycle: what it runs, how it ends, which instruction raises which error, and how a run ends (R90, R96 to
R99, R210 to R217, R255). -/

namespace Sys2Proof.Machine

open Sys2Proof.Safety

/-! ### Which instruction raises which error (R211, R213) -/

/-- The table of execute-time errors: instruction `i` in state `s` raises `e`. -/
def Raises (i : Instr) (s : State) (e : Fault) : Prop :=
  (i = .ret ∧ s.sp.val = 0 ∧ e = .stackUnderflow) ∨
  (∃ nnn, i = .call nnn ∧ s.sp.val = 16 ∧ e = .stackOverflow) ∨
  (∃ x y n, i = .drw x y n ∧ 0 < n.toNat ∧ s.i.toNat + n.toNat - 1 > 4095 ∧ e = .outOfBoundsAccess) ∨
  (∃ x, i = .ldBcd x ∧ s.i.toNat + 2 > 4095 ∧ e = .outOfBoundsAccess) ∨
  (∃ x, i = .stRegs x ∧ s.i.toNat + x.toNat > 4095 ∧ e = .outOfBoundsAccess) ∨
  (∃ x, i = .ldRegs x ∧ s.i.toNat + x.toNat > 4095 ∧ e = .outOfBoundsAccess)

/-- Some of the `n` addresses from `I` lies above 4095. -/
theorem not_inRange_iff (s : State) (n : Nat) :
    inRange (s.effAddr 0) n = false ↔ 0 < n ∧ s.i.toNat + n - 1 > 4095 := by
  rw [← Bool.not_eq_true, inRange_iff, State.effAddr]
  omega

theorem exec_ldVxKey_ne_fault (x : Nibble) (s : State) (e : Fault) : exec (.ldVxKey x) s ≠ .fault e := by
  simp only [exec, execLdVxKey]
  cases s.leastKey <;> simp [await, advance]

/-- The two stack instructions fault by the depth, the four that access memory at `I` by their range check, and all
others retire. -/
theorem exec_fault_iff (i : Instr) (s : State) (e : Fault) : exec i s = .fault e ↔ Raises i s e := by
  cases i with
  | ret => simp [Raises, exec_ret_fault_iff]
  | call nnn => simp [Raises, exec_call_fault_iff]
  | drw x y n =>
    refine (guardRange_fault_iff ..).trans ?_
    simp [Raises, not_inRange_iff, and_assoc]
  | ldBcd x =>
    refine (guardRange_fault_iff ..).trans ?_
    simp [Raises, not_inRange_iff]
  | stRegs x =>
    refine (guardRange_fault_iff ..).trans ?_
    simp [Raises, not_inRange_iff]
  | ldRegs x =>
    refine (guardRange_fault_iff ..).trans ?_
    simp [Raises, not_inRange_iff]
  | ldVxKey x => exact iff_of_false (exec_ldVxKey_ne_fault x s e) (by simp [Raises])
  | _ => exact iff_of_false (finish_ne_fault _ _ _) (by simp [Raises])

/-- Settles O10: the table of execute-time errors is complete and exact. -/
theorem whichInstructionsFault : Obligations.WhichInstructionsFault := exec_fault_iff

/-! ### Every cycle has an outcome (R98, R210) -/

theorem guardRange_ne_refused (a n : Nat) (s : State) (p : Word) (r : Refusal) :
    guardRange a n (finish s p) ≠ .refused r := by
  unfold guardRange
  split <;> simp [raise]

/-- No instruction is refused. -/
theorem exec_ne_refused (i : Instr) (s : State) (r : Refusal) : exec i s ≠ .refused r := by
  cases i with
  | ret => simp only [exec, execRet]; split <;> simp [raise]
  | call nnn => simp only [exec, execCall]; split <;> simp [raise]
  | drw x y n => exact guardRange_ne_refused _ _ _ _ _
  | ldBcd x => exact guardRange_ne_refused _ _ _ _ _
  | stRegs x => exact guardRange_ne_refused _ _ _ _ _
  | ldRegs x => exact guardRange_ne_refused _ _ _ _ _
  | ldVxKey x =>
    simp only [exec, execLdVxKey]
    cases s.leastKey <;> simp [await, advance]
  | _ => exact finish_ne_refused _ _ _

theorem step_ne_refused (s : State) (r : Refusal) : step s ≠ .refused r := by
  unfold step
  split
  · simp [raise]
  split
  · simp [raise]
  · next i _ => simp [exec_ne_refused i s r]

/-- `RomTooLarge` is an error of `load` alone (R214). -/
theorem ne_romTooLarge_of_step_fault {s : State} {e : Fault} (h : step s = .fault e) : e ≠ .romTooLarge := by
  obtain ⟨-, rfl⟩ | ⟨op, r, -, -, rfl⟩ | ⟨op, i, -, -, hx⟩ := (step_fault_iff s e).mp h
  · simp
  · simp
  · rintro rfl
    simp [exec_fault_iff, Raises] at hx

/-- Settles O11: a step is not refused, and none of the errors a cycle can meet is `RomTooLarge`. -/
theorem everyCycleHasAnOutcome : Obligations.EveryCycleHasAnOutcome := by
  intro s
  cases hstep : step s with
  | next t => exact .inl ⟨t, rfl⟩
  | fault e => exact .inr ⟨e, rfl, ne_romTooLarge_of_step_fault hstep⟩
  | refused r => exact absurd hstep (step_ne_refused s r)

/-! ### The cycle, from fetch to tick (R90, R96, R97) -/

theorem step_of_decode {s : State} {i : Instr} (hpc : s.pc.toNat ≤ 4094) (hd : decode (wordAtPc s) = .ok i) :
    step s = endCycle (exec i s) := by
  simp [step, fetch_eq_wordAtPc hpc, hd]

/-- Settles O5: the fetch gives the word at `pc`, and the cycle ends by the tick or the error. -/
theorem stepRunsDecodedInstruction : Obligations.StepRunsDecodedInstruction := by
  intro s i hpc hd
  rw [step_of_decode hpc hd]
  cases exec i s <;> rfl

/-- The outcome of a cycle that completed: the edge, when the tick met `ST` at 1 (R97). -/
theorem cycle_of_step_tick {s t : State} (h : step s = .next (tick t)) :
    cycle s = .ok (tick t, if t.st.toNat = 1 then .soundEdge else .normal) := by
  have hedge : (t.st == 1) = true ↔ t.st.toNat = 1 := beq_iff_toNat_eq t.st 1
  simp only [cycle, h, tick_edge, hedge]

/-- Settles O6: the tick lowers both timers, sets the edge and writes nothing else. -/
theorem cycleEndsWithTick : Obligations.CycleEndsWithTick := by
  intro s i t hpc hd hx
  have hstep := step_of_exec_next hpc hd hx
  exact ⟨tick t, hstep, toNat_tickTimer t.dt, toNat_tickTimer t.st, cycle_of_step_tick hstep, rfl⟩

/-- Settles O7: nothing is fetched above 4094, and a faulting cycle keeps the state. -/
theorem fetchPastTheEndIsReported : Obligations.FetchPastTheEndIsReported :=
  fun _ hpc => ⟨step_of_pc_gt hpc, cycle_of_step_fault (step_of_pc_gt hpc)⟩

/-! ### A run that has ended stays ended (R217, R255) -/

/-- A step's error depends on `pc`, memory, the depth and `I` alone, none of which the host writes. -/
theorem step_fault_of_keys_draws {s : State} {e : Fault} (keys : BitVec 16) (d : Nat) (h : step s = .fault e) :
    step { s with key := keys, draws := d } = .fault e := by
  simp only [step_fault_iff, exec_fault_iff] at h ⊢
  exact h

/-- A jump to its own address retires where it stands, so only the tick is left of its cycle. -/
theorem step_of_atSelfJump {s : State} (h : s.atSelfJump = true) : step s = .next (tick (s.retire s.pc)) := by
  obtain ⟨op, nnn, hf, hd, hself⟩ := s.atSelfJump_iff.mp h
  exact (step_next_iff s _).mpr ⟨op, .jp nnn, _, hf, hd, (exec_jp_next_iff s _ nnn).mpr rfl, by rw [hself]⟩

/-- Settles O9: an error is raised again because nothing it depends on has changed; a self-jump's cycle leaves `pc` and
memory, hence the self-jump, as they were. -/
theorem endedRunsStayEnded : Obligations.EndedRunsStayEnded := by
  refine ⟨fun s e keys d h => ⟨cycle_of_step_fault h, step_fault_of_keys_draws keys d h⟩, fun s h => ?_⟩
  exact ⟨_, step_of_atSelfJump h, h, toNat_tickTimer s.dt, toNat_tickTimer s.st, rfl, rfl⟩

end Sys2Proof.Machine
end

section
/-! PROOFS. What no cycle reads: `MODE`, the edge last reported, the sound timer, dead stack entries (R30, R31, R32,
R97). -/

namespace Sys2Proof.Machine

open Sys2Proof.Safety

/-! ### A state with other contents where no instruction looks -/

/-- `s` with another `MODE`, edge, sound timer and stack. -/
def State.repaint (s : State) (m : Mode) (e : Bool) (st : Byte) (stack : Vector Word 16) : State :=
  { s with mode := m, edge := e, st := st, stack := stack }

/-- A result with another edge, sound timer and stack in its next state, if it has one. -/
def repaintNext (e : Bool) (st : Byte) (stack : Vector Word 16) : Result → Result
  | .next t => .next (t.repaint t.mode e st stack)
  | .fault r => .fault r
  | .refused r => .refused r

theorem guardRange_repaintNext (e : Bool) (st : Byte) (stack : Vector Word 16) (a n : Nat) (body : Result) :
    guardRange a n (repaintNext e st stack body) = repaintNext e st stack (guardRange a n body) := by
  unfold guardRange
  split <;> rfl

/-- An instruction but the two of the stack and FX18 does not look at `MODE`, the edge, `ST` or the stack, and leaves the
last three alone; `MODE` it writes, whatever it was. -/
theorem exec_repaint (i : Instr) (s : State) (m : Mode) (e : Bool) (st : Byte) (stack : Vector Word 16)
    (hret : i ≠ .ret) (hcall : ∀ nnn, i ≠ .call nnn) (hsound : ∀ x, i ≠ .ldStVx x) :
    exec i (s.repaint m e st stack) = repaintNext e st stack (exec i s) := by
  cases i with
  | ret => exact absurd rfl hret
  | call nnn => exact absurd rfl (hcall nnn)
  | ldStVx x => exact absurd rfl (hsound x)
  | drw x y n =>
    exact guardRange_repaintNext e st stack (s.effAddr 0) n.toNat (advance (s.commitDrawing (s.drawn x y n)))
  | ldBcd x =>
    exact guardRange_repaintNext e st stack (s.effAddr 0) 3
      (advance (s.storeBytes (s.effAddr 0) (bcdDigits (s.reg x))))
  | stRegs x =>
    exact guardRange_repaintNext e st stack (s.effAddr 0) (x.toNat + 1)
      (advance (s.storeBytes (s.effAddr 0) (s.lowRegs x)))
  | ldRegs x =>
    exact guardRange_repaintNext e st stack (s.effAddr 0) (x.toNat + 1)
      (advance (s.loadRegsFrom (s.effAddr 0) (List.range (x.toNat + 1))))
  | ldVxKey x =>
    have hkey : (s.repaint m e st stack).leastKey = s.leastKey := rfl
    simp only [exec, execLdVxKey, hkey]
    cases s.leastKey <;> rfl
  | _ => rfl

/-- What is left unsaid by `exec_repaint` of a completed instruction: the repainted fields it kept. -/
theorem exec_repaint_next {i : Instr} {s t : State} (m : Mode) (e : Bool) (st : Byte) (stack : Vector Word 16)
    (hret : i ≠ .ret) (hcall : ∀ nnn, i ≠ .call nnn) (hsound : ∀ x, i ≠ .ldStVx x) (h : exec i s = .next t) :
    exec i (s.repaint m e st stack) = .next (t.repaint t.mode e st stack) ∧
      t.edge = s.edge ∧ t.st = s.st ∧ t.stack = s.stack ∧ t.sp = s.sp := by
  have hw := exec_wrote h
  refine ⟨by rw [exec_repaint i s m e st stack hret hcall hsound, h]; rfl, hw.edge_eq, ?_, ?_, ?_⟩
  · by_contra hne
    obtain ⟨x, hi⟩ := hw.st_of_ne hne
    exact hsound x hi
  · by_contra hne
    obtain ⟨nnn, hi⟩ := hw.stack_of_ne hne
    exact hcall nnn hi
  · by_contra hne
    obtain hi | ⟨nnn, hi⟩ := hw.sp_of_ne hne
    · exact hret hi
    · exact hcall nnn hi

/-- The two stack instructions, FX18, and the instructions of `exec_repaint`. -/
theorem stack_or_sound_or_other (i : Instr) : i = .ret ∨ (∃ nnn, i = .call nnn) ∨ (∃ x, i = .ldStVx x) ∨
    (i ≠ .ret ∧ (∀ nnn, i ≠ .call nnn) ∧ ∀ x, i ≠ .ldStVx x) := by
  simp only [← not_exists, ← not_or, ne_eq, ← or_assoc]
  exact Classical.em _

/-! ### Dead stack entries (R32, decision D27) -/

theorem eq_of_sameButDead {s t : State} (h : SameButDead s t) : t = { s with stack := t.stack } := by
  rw [← h.1]

/-- The tick writes no stack entry and compares none. -/
theorem sameButDead_tick {s t : State} (h : SameButDead s t) : SameButDead (tick s) (tick t) := by
  rw [eq_of_sameButDead h]
  exact ⟨rfl, h.2⟩

theorem sameButDead_ret {s : State} {stack : Vector Word 16} (live : 0 < s.sp.val)
    (h : ∀ k : Fin 16, k.val < s.sp.val → stack.get k = s.stack.get k) :
    ∃ t', exec .ret { s with stack := stack } = .next t' ∧ SameButDead (s.drop.retire (s.top live + 2)) t' := by
  refine ⟨_, (exec_ret_next_iff _ _).mpr ⟨live, rfl⟩, ?_, fun k hk => h k (Nat.lt_of_lt_of_le hk (Nat.sub_le _ _))⟩
  have hsp := s.sp.isLt
  have htop : ({ s with stack := stack } : State).top live = s.top live :=
    h ⟨s.sp.val - 1, by omega⟩ (Nat.sub_lt live Nat.one_pos)
  rw [htop]
  rfl

theorem sameButDead_call {s : State} {stack : Vector Word 16} (nnn : Addr) (room : s.sp.val < 16)
    (h : ∀ k : Fin 16, k.val < s.sp.val → stack.get k = s.stack.get k) :
    ∃ t', exec (.call nnn) { s with stack := stack } = .next t' ∧
      SameButDead ((s.push s.pc room).retire (addrToPc nnn)) t' := by
  refine ⟨_, (exec_call_next_iff _ _ nnn).mpr ⟨room, rfl⟩, rfl, fun k hk => ?_⟩
  have hold : k.val ≠ s.sp.val → stack.get k = s.stack.get k := fun hne =>
    h k (Nat.lt_of_le_of_ne (Nat.le_of_lt_succ hk) hne)
  simp only [State.retire_stack, State.get_push_stack]
  split
  · rfl
  · next hne => exact hold hne

/-- An instruction that completes does so from any state with the same live entries, to such a state. -/
theorem exec_next_of_sameButDead {i : Instr} {s s' t : State} (hst : SameButDead s t) (h : exec i s = .next s') :
    ∃ t', exec i t = .next t' ∧ SameButDead s' t' := by
  have hlive := hst.2
  rw [eq_of_sameButDead hst]
  obtain rfl | ⟨nnn, rfl⟩ | ⟨x, rfl⟩ | ⟨hret, hcall, hsound⟩ := stack_or_sound_or_other i
  · obtain ⟨live, rfl⟩ := (exec_ret_next_iff s s').mp h
    exact sameButDead_ret live hlive
  · obtain ⟨room, rfl⟩ := (exec_call_next_iff s s' nnn).mp h
    exact sameButDead_call nnn room hlive
  · obtain rfl := (exec_ldStVx_next_iff s s' x).mp h
    exact ⟨_, (exec_ldStVx_next_iff _ _ x).mpr rfl, rfl, hlive⟩
  · obtain ⟨hx, hedge, hst', hstack, hsp⟩ := exec_repaint_next s.mode s.edge s.st t.stack hret hcall hsound h
    refine ⟨_, hx, ?_, fun k hk => ?_⟩
    · rw [← hedge, ← hst']
      rfl
    · rw [hstack]
      exact hlive k (hsp ▸ hk)

/-- Settles O23: the fetch and the decoder do not meet the stack, no error depends on its entries, and a completed
instruction reads live entries alone. -/
theorem deadStackEntriesAreNotRead : Obligations.DeadStackEntriesAreNotRead := by
  intro s t hst
  have ht := eq_of_sameButDead hst
  refine ⟨fun s' h => ?_, fun e h => ?_⟩
  · obtain ⟨op, i, u, hf, hd, hx, rfl⟩ := (step_next_iff s s').mp h
    obtain ⟨v, hv, hsame⟩ := exec_next_of_sameButDead hst hx
    have hft : fetch t = some op := by
      rw [ht]
      exact hf
    exact ⟨_, (step_next_iff t _).mpr ⟨op, i, v, hft, hd, hv, rfl⟩, sameButDead_tick hsame⟩
  · rw [ht]
    simp only [step_fault_iff, exec_fault_iff] at h ⊢
    exact h

/-! ### `MODE` and the edge (R31, R97) -/

/-- A completed instruction hands the edge on and writes `MODE`, whatever they were. -/
theorem exec_next_of_mode_edge {i : Instr} {s t : State} (m : Mode) (e : Bool) (h : exec i s = .next t) :
    exec i { s with mode := m, edge := e } = .next { t with edge := e } := by
  obtain rfl | ⟨nnn, rfl⟩ | ⟨x, rfl⟩ | ⟨hret, hcall, hsound⟩ := stack_or_sound_or_other i
  · obtain ⟨live, rfl⟩ := (exec_ret_next_iff s t).mp h
    exact (exec_ret_next_iff _ _).mpr ⟨live, rfl⟩
  · obtain ⟨room, rfl⟩ := (exec_call_next_iff s t nnn).mp h
    exact (exec_call_next_iff _ _ nnn).mpr ⟨room, rfl⟩
  · obtain rfl := (exec_ldStVx_next_iff s t x).mp h
    rfl
  · obtain ⟨hx, -, hst, hstack, -⟩ := exec_repaint_next m e s.st s.stack hret hcall hsound h
    refine hx.trans ?_
    rw [← hst, ← hstack]
    rfl

/-- The tick sets the edge anew, so what it was is lost in every cycle. -/
theorem endCycle_exec_mode_edge (i : Instr) (s : State) (m : Mode) (e : Bool) :
    endCycle (exec i { s with mode := m, edge := e }) = endCycle (exec i s) := by
  cases hx : exec i s with
  | next t =>
    rw [exec_next_of_mode_edge m e hx]
    rfl
  | fault r =>
    rw [exec_fault_iff] at hx
    rw [(exec_fault_iff i { s with mode := m, edge := e } r).mpr hx]
  | refused r => exact absurd hx (exec_ne_refused i s r)

/-- Settles O22: the fetch and the decoder do not meet the two fields, and the rest of the cycle loses them. -/
theorem modeAndEdgeAreNotRead : Obligations.ModeAndEdgeAreNotRead := by
  intro s m e
  have hfetch : fetch { s with mode := m, edge := e } = fetch s := rfl
  simp only [step, hfetch, endCycle_exec_mode_edge]

/-! ### The sound timer (R30, R197) -/

/-- Settles O24: FX18 writes `ST` whatever it was, and every other instruction hands it on. -/
theorem soundTimerIsNotRead : Obligations.SoundTimerIsNotRead := by
  intro i s t b h
  obtain rfl | ⟨nnn, rfl⟩ | ⟨x, rfl⟩ | ⟨hret, hcall, hsound⟩ := stack_or_sound_or_other i
  · obtain ⟨live, rfl⟩ := (exec_ret_next_iff s t).mp h
    exact ⟨_, (exec_ret_next_iff _ _).mpr ⟨live, rfl⟩, rfl⟩
  · obtain ⟨room, rfl⟩ := (exec_call_next_iff s t nnn).mp h
    exact ⟨_, (exec_call_next_iff _ _ nnn).mpr ⟨room, rfl⟩, rfl⟩
  · obtain rfl := (exec_ldStVx_next_iff s t x).mp h
    exact ⟨_, rfl, rfl⟩
  · obtain ⟨hx, hedge, -, hstack, -⟩ := exec_repaint_next s.mode s.edge b s.stack hret hcall hsound h
    refine ⟨_, hx, ?_⟩
    rw [← hedge, ← hstack]
    rfl

end Sys2Proof.Machine
end

section
/-! PROOFS. Reset, `load` and the host's ports (R37 to R43, R57, R240 to R246). -/

namespace Sys2Proof.Machine

/-! ### Memory after reset (R57) -/

theorem resetByte_outside_font {a : Nat} (h : a < 0x050 ∨ 0x0A0 ≤ a) : resetByte a = 0 := by
  unfold resetByte
  split
  · simp only [Config.fontBase] at *
    rw [List.getD_eq_default _ _ (by simp; omega)]
  · rfl

theorem resetByte_font (k : Fin 80) : resetByte (0x050 + k.val) = defaultFont.get k := by
  simp [resetByte, Config.fontBase, Vector.get_eq_getElem]

/-- Settles O15: memory reads as its reset contents, and every other component is written out in `State.reset`. -/
theorem resetValues : Obligations.ResetValues := by
  refine ⟨rfl, fun _ ha => resetByte_outside_font ha, resetByte_font, fun r => ?_, rfl, rfl, fun k => ?_, rfl, rfl,
    lit_cleared, fun k => ?_, rfl⟩
  · simp [State.reg, State.reset]
  · simp [State.reset, Vector.get_eq_getElem]
  · simp [State.keyDown, State.reset]

/-! ### `load` (R240, R241) -/

theorem load_eq_loadedState (font : Vector Byte 80) {rom : List Byte} (h : rom.length ≤ 3584) :
    load font rom = .ok (loadedState font rom) :=
  (load_ok_iff font rom _).mpr ⟨h, rfl⟩

/-- The ROM lies over the font, and both over the reset contents; the three places are apart. -/
theorem byteAt_loadedState (font : Vector Byte 80) (rom : List Byte) (a : Nat) :
    (loadedState font rom).byteAt a =
      if 0x050 ≤ a ∧ a < 0x0A0 then font.toList.getD (a - 0x050) 0
      else if 0x200 ≤ a ∧ a < 0x200 + rom.length then rom.getD (a - 0x200) 0
      else 0 := by
  simp only [State.byteAt, loadedState, Mem.read_writeList, Config.progBase, Config.fontBase, Vector.length_toList]
  by_cases hfont : 0x050 ≤ a ∧ a < 0x0A0
  · rw [if_neg (by omega), if_pos hfont, if_pos hfont]
  · rw [if_neg (c := 0x050 ≤ a ∧ a < 0x050 + 80) hfont, if_neg hfont, Mem.read, resetByte_outside_font (by omega)]

/-- Settles O16: `load` writes memory alone, the font first and the ROM over it. -/
theorem loadLaysOutMemory : Obligations.LoadLaysOutMemory := fun font rom hlen =>
  ⟨loadedState font rom, load_eq_loadedState font hlen, rfl, byteAt_loadedState font rom⟩

theorem load_of_too_large (font : Vector Byte 80) {rom : List Byte} (h : rom.length > 3584) :
    load font rom = .error .romTooLarge :=
  if_pos h

/-- Settles O17: the length decides `load`, and a machine whose `load` failed refuses everything. -/
theorem oversizedRomIsRefused : Obligations.OversizedRomIsRefused := by
  refine fun font rom => ⟨fun hlen => ⟨?_, fun _ => rfl⟩, fun hlen => ⟨loadedState font rom, ?_, fun k hk => ?_⟩⟩
  · simp [interact, interactUnloaded, load_of_too_large font hlen]
  · simp [interact, interactUnloaded, load_eq_loadedState font hlen]
  · rw [byteAt_loadedState, if_neg (by omega), if_pos (by omega), Nat.add_sub_cancel_left]

/-! ### The ports of a running machine (R39 to R43) -/

/-- A cycle is always answered (R98). -/
theorem cycle_answers (s : State) : ∃ t o, cycle s = .ok (t, o) := by
  obtain ⟨t, h⟩ | ⟨e, h, -⟩ := everyCycleHasAnOutcome s
  · exact ⟨t, if t.edge then .soundEdge else .normal, by simp only [cycle, h]⟩
  · exact ⟨s, _, cycle_of_step_fault h⟩

/-- `set_key` writes one key of the latch (R40). -/
theorem keyDown_setKey (s : State) (k j : Nibble) (pressed : Bool) :
    (s.setKey k pressed).keyDown j = if j = k then pressed else s.keyDown j := by
  have hj := j.isLt
  have hk := k.isLt
  have hbit : (1#16 <<< k.toNat).getLsbD j.toNat = decide (j = k) := by
    rw [← BitVec.twoPow_eq, BitVec.getLsbD_twoPow, decide_eq_true (by omega), Bool.true_and]
    simp only [← BitVec.toNat_inj, eq_comm]
  cases pressed
  · simp only [State.keyDown, State.setKey, Bool.false_eq_true, if_false, BitVec.getLsbD_and, BitVec.getLsbD_not, hbit]
    by_cases h : j = k <;> simp [h, hj]
  · simp only [State.keyDown, State.setKey, if_true, BitVec.getLsbD_or, hbit]
    by_cases h : j = k <;> simp [h]

/-- Settles O18: each port in turn. -/
theorem hostPortsOfARunningMachine : Obligations.HostPortsOfARunningMachine := by
  intro font s
  refine ⟨?_, fun k pressed hk => ⟨s.setKey (BitVec.ofNat 4 k) pressed, if_pos hk, rfl, fun j => ?_⟩,
    fun k pressed hk => if_neg (by omega), fun _ => rfl, rfl, rfl, rfl, ?_, fun _ => rfl⟩
  · obtain ⟨t, o, h⟩ := cycle_answers s
    exact ⟨t, o, h, by simp [interact, interactRunning, h]⟩
  · have hjk : j = BitVec.ofNat 4 k ↔ j.toNat = k := by bv_omega
    simp only [keyDown_setKey, hjk]
  · simp [interact, interactRunning, beq_eq_decide]

end Sys2Proof.Machine
end

section
/-! PROOFS. The indexed jump, a call followed by its return (41_flow.md R113, R118), and the ALU (42_alu.md R133 to
R144). -/

namespace Sys2Proof.Machine

open Sys2Proof.Safety

/-! ### Control transfer -/

/-- Settles O28: the sum of the two 16-bit numbers does not reach 65536, so it is not reduced. -/
theorem indexedJumpDoesNotWrap : Obligations.IndexedJumpDoesNotWrap := fun s nnn =>
  ⟨decode_encode (.jpV0 nnn), _, (exec_jpV0_next_iff s _ nnn).mpr rfl, toNat_addrToPc_add nnn (s.reg 0)⟩

/-- Settles O30: the return finds the entry the call pushed on top, and drops it. -/
theorem callThenReturn : Obligations.CallThenReturn := by
  intro s t nnn h
  obtain ⟨room, rfl⟩ := (exec_call_next_iff s t nnn).mp h
  have live : 0 < ((s.push s.pc room).retire (addrToPc nnn)).sp.val := Nat.succ_pos _
  refine ⟨_, (exec_ret_next_iff _ _).mpr ⟨live, rfl⟩, ?_, Fin.ext (Nat.add_sub_cancel s.sp.val 1)⟩
  have htop : ((s.push s.pc room).retire (addrToPc nnn)).top live = s.pc :=
    (State.top_eq_get (k := ⟨s.sp.val, room⟩) rfl live).trans (State.get_push rfl s.pc room)
  rw [State.retire_pc, htop]

/-! ### The bitwise operations (R134 to R136) -/

/-- Settles O32: the three differ in their word and in the byte they write, whose bits are the operands' bits. -/
theorem bitwiseOperations : Obligations.BitwiseOperations := by
  intro s x y
  refine ⟨⟨decode_encode (.orReg x y), ?_⟩, ⟨decode_encode (.andReg x y), ?_⟩, ⟨decode_encode (.xorReg x y), ?_⟩⟩
  · obtain ⟨t, hx, hv, hregs, hpc⟩ := setReg_completes ((exec_orReg_next_iff s _ x y).mpr rfl)
    exact ⟨t, hx, hregs, hpc, fun k => by rw [hv, BitVec.getLsbD_or]⟩
  · obtain ⟨t, hx, hv, hregs, hpc⟩ := setReg_completes ((exec_andReg_next_iff s _ x y).mpr rfl)
    exact ⟨t, hx, hregs, hpc, fun k => by rw [hv, BitVec.getLsbD_and]⟩
  · obtain ⟨t, hx, hv, hregs, hpc⟩ := setReg_completes ((exec_xorReg_next_iff s _ x y).mpr rfl)
    exact ⟨t, hx, hregs, hpc, fun k => by rw [hv, BitVec.getLsbD_xor]⟩

/-! ### Instructions that write a result and the flag (R133) -/

theorem regsKept_write2_retire (s : State) (x : Nibble) (f r : Byte) (p : Word) :
    RegsKept [x, 15] s ((s.write2 x f r).retire p) := by
  intro q hq
  simp only [List.mem_cons, List.not_mem_nil, or_false, not_or] at hq
  obtain ⟨hx, h15⟩ := hq
  exact (State.reg_write2 s x q f r).trans ((if_neg hx).trans (if_neg h15))

/-- What an instruction does that writes the result `r` and the flag `f` and goes on to the next word. -/
theorem write2_completes {s : State} {i : Instr} {x : Nibble} {f r : Byte}
    (hx : exec i s = .next ((s.write2 x f r).retire (s.pc + 2))) :
    ∃ t, exec i s = .next t ∧ RegsKept [x, 15] s t ∧ t.pc = s.pc + 2 ∧ t.reg x = r ∧ (x ≠ 15 → t.reg 15 = f) := by
  refine ⟨_, hx, regsKept_write2_retire s x f r _, rfl, ?_, fun hne => ?_⟩
  · rw [State.retire_reg, State.reg_write2, if_pos rfl]
  · rw [State.retire_reg, State.reg_write2, if_neg hne.symm]
    rfl

theorem toNat_sumByte (a b : Byte) : (sumByte a b).toNat = (a.toNat + b.toNat) % 256 := by
  simp [sumByte]

theorem differenceByte_eq_sub (a b : Byte) : differenceByte a b = a - b := by
  have := a.isLt
  have := b.isLt
  apply BitVec.eq_of_toNat_eq
  rw [differenceByte, BitVec.toNat_ofNat, BitVec.toNat_sub]
  omega

theorem carryFlag_eq (a b : Byte) : carryFlag a b = if a.toNat + b.toNat > 255 then 1 else 0 := by
  simp [carryFlag, flagByte]

theorem noBorrowFlag_eq (a b : Byte) : noBorrowFlag a b = if a.toNat ≥ b.toNat then 1 else 0 := by
  simp [noBorrowFlag, flagByte]

theorem toNat_flagByte (b : Bool) : (flagByte b).toNat = b.toNat := by
  cases b <;> rfl

theorem toNat_lowBitFlag (b : Byte) : (lowBitFlag b).toNat = b.toNat % 2 := by
  rw [lowBitFlag, toNat_flagByte, BitVec.getLsbD, Nat.testBit_zero]
  obtain h | h := Nat.mod_two_eq_zero_or_one b.toNat <;> simp [h]

theorem toNat_highBitFlag (b : Byte) : (highBitFlag b).toNat = b.toNat / 128 := by
  have := b.isLt
  rw [highBitFlag, toNat_flagByte, BitVec.getLsbD, Nat.testBit_eq_decide_div_mod_eq]
  obtain h | h : b.toNat / 128 = 0 ∨ b.toNat / 128 = 1 := by omega
  all_goals simp [h]

/-- Settles O33: the result is the sum's byte and the flag its carry. -/
theorem addWithCarry : Obligations.AddWithCarry := by
  intro s x y
  obtain ⟨t, hx, hregs, hpc, hres, hflag⟩ := write2_completes ((exec_addReg_next_iff s _ x y).mpr rfl)
  exact ⟨decode_encode (.addReg x y), t, hx, hregs, hpc, hres ▸ toNat_sumByte _ _,
    fun hne => (hflag hne).trans (carryFlag_eq _ _)⟩

/-- What a subtraction does, for either order of the operands. -/
theorem subtract_completes {s : State} {i : Instr} {x : Nibble} {a b : Byte}
    (hx : exec i s = .next ((s.write2 x (noBorrowFlag a b) (differenceByte a b)).retire (s.pc + 2))) :
    ∃ t, exec i s = .next t ∧ RegsKept [x, 15] s t ∧ t.pc = s.pc + 2 ∧ t.reg x = a - b ∧
      (x ≠ 15 → t.reg 15 = if a.toNat ≥ b.toNat then 1 else 0) := by
  rw [differenceByte_eq_sub, noBorrowFlag_eq] at hx
  exact write2_completes hx

/-- Settles O34: the two subtractions differ in their word and in the order of the operands. -/
theorem subtractWithBorrow : Obligations.SubtractWithBorrow := fun s x y =>
  ⟨⟨decode_encode (.sub x y), subtract_completes ((exec_sub_next_iff s _ x y).mpr rfl)⟩,
    ⟨decode_encode (.subn x y), subtract_completes ((exec_subn_next_iff s _ x y).mpr rfl)⟩⟩

/-- Settles O35: the lost bit is the remainder of the halving, or what the doubling carries out. -/
theorem shiftsByOne : Obligations.ShiftsByOne := by
  intro s x y
  have hlt := (s.reg x).isLt
  refine ⟨⟨decode_encode (.shr x y), ?_⟩, ⟨decode_encode (.shl x y), ?_⟩⟩
  · obtain ⟨t, hx, hregs, hpc, hres, hflag⟩ := write2_completes ((exec_shr_next_iff s _ x y).mpr rfl)
    refine ⟨t, hx, hregs, hpc, ?_, fun hne => ?_⟩
    · rw [hres, BitVec.toNat_ofNat]
      omega
    · rw [hflag hne, toNat_lowBitFlag]
  · obtain ⟨t, hx, hregs, hpc, hres, hflag⟩ := write2_completes ((exec_shl_next_iff s _ x y).mpr rfl)
    refine ⟨t, hx, hregs, hpc, ?_, fun hne => ?_⟩
    · rw [hres, BitVec.toNat_ofNat, Nat.mod_mod]
    · rw [hflag hne, toNat_highBitFlag]

/-! ### The random byte (R143, R144) -/

/-- Settles O36: whatever the draw, the mask clears every bit it does not hold. -/
theorem randomIsMasked : Obligations.RandomIsMasked := by
  intro s x nn
  have hres : (((s.consumeDraw.setReg x (s.draw &&& nn)).retire (s.pc + 2)).reg x) = Config.rndDraw s.draws &&& nn := by
    rw [State.retire_reg, State.reg_setReg, if_pos rfl, State.draw]
  exact ⟨decode_encode (.rnd x nn), _, (exec_rnd_next_iff s _ x nn).mpr rfl,
    regsKept_setReg_retire s.consumeDraw x _ _, rfl, rfl, hres, fun k hk => by simp [hk]⟩

end Sys2Proof.Machine
end

section
/-! PROOFS. The address register and memory (43_index_memory.md R161, R163 to R165; 20_memory.md R55, R61). -/

namespace Sys2Proof.Machine

open Sys2Proof.Safety

/-- Settles O38: the sum is reduced once, and a 12-bit register holds what is left. -/
theorem addToTheAddressRegister : Obligations.AddToTheAddressRegister := by
  intro s x
  obtain ⟨t, hx, hi, hregs, hpc⟩ := setI_completes ((exec_addI_next_iff s _ x).mpr rfl)
  exact ⟨decode_encode (.addI x), t, hx, by simp [hi, addrPlus], hregs, hpc⟩

/-! ### Where an instruction's bytes lie (R166) -/

theorem effAddr_zero (s : State) : s.effAddr 0 = s.i.toNat := rfl

/-- All `n` addresses from `I` exist when the last one does. -/
theorem inRange_of_le {s : State} {n : Nat} (h : s.i.toNat + n ≤ 4096) : inRange (s.effAddr 0) n = true :=
  (inRange_iff _ _).mpr (.inr h)

/-- What a store at `I` leaves at the `k`-th address from `I`. -/
theorem byteAt_stored {s : State} {ws : List Byte} {k : Nat} (hk : k < ws.length) (p : Word) :
    ((s.storeBytes (s.effAddr 0) ws).retire p).byteAt (s.i.toNat + k) = ws.getD k 0 := by
  rw [State.retire_byteAt, State.byteAt_storeBytes, effAddr_zero, if_pos (by omega), Nat.add_sub_cancel_left]

/-! ### Decimal digits (R163) -/

/-- FX33 leaves the hundreds, the tens and the ones (R163). -/
theorem digits_of_exec_ldBcd {s t : State} {x : Nibble} (h : exec (.ldBcd x) s = .next t) :
    (t.byteAt s.i.toNat).toNat = (s.reg x).toNat / 100 ∧ (t.byteAt (s.i.toNat + 1)).toNat = (s.reg x).toNat / 10 % 10 ∧
      (t.byteAt (s.i.toNat + 2)).toNat = (s.reg x).toNat % 10 := by
  obtain ⟨-, rfl⟩ := (exec_ldBcd_next_iff s t x).mp h
  have digit : ∀ k, k < 3 → _ = (bcdDigits (s.reg x)).getD k 0 := fun k hk =>
    byteAt_stored (s := s) (ws := bcdDigits (s.reg x)) hk (s.pc + 2)
  have := (s.reg x).isLt
  refine ⟨(congrArg BitVec.toNat (digit 0 (by decide))).trans ?_, (congrArg BitVec.toNat (digit 1 (by decide))).trans ?_,
    (congrArg BitVec.toNat (digit 2 (by decide))).trans ?_⟩
  all_goals
    simp only [bcdDigits, List.getD_cons_zero, List.getD_cons_succ, BitVec.toNat_ofNat]
    omega

/-- Settles O39: a byte is its hundreds, tens and ones; the range check fails for the third address first. -/
theorem bcdDigitsAreStored : Obligations.BcdDigitsAreStored := by
  intro s x
  refine ⟨decode_encode (.ldBcd x), fun hin => ?_, fun hout => ?_⟩
  · have hx := (exec_ldBcd_next_iff s _ x).mpr ⟨inRange_of_le (by omega), rfl⟩
    obtain ⟨h0, h1, h2⟩ := digits_of_exec_ldBcd hx
    exact ⟨_, hx, rfl, by omega, by omega, by omega⟩
  · exact (exec_fault_iff _ s _).mpr (by simp [Raises, hout])

/-! ### Blocks of registers (R164, R165) -/

theorem getD_lowRegs (s : State) {x r : Nibble} (h : r.toNat ≤ x.toNat) : (s.lowRegs x).getD r.toNat 0 = s.reg r := by
  have hlt : r.toNat < x.toNat + 1 := by omega
  simp [State.lowRegs, hlt]

/-- FX55 leaves each register at its place (R164). -/
theorem byteAt_of_exec_stRegs {s t : State} {x r : Nibble} (h : exec (.stRegs x) s = .next t) (hr : r.toNat ≤ x.toNat) :
    t.byteAt (s.i.toNat + r.toNat) = s.reg r := by
  obtain ⟨-, rfl⟩ := (exec_stRegs_next_iff s t x).mp h
  rw [byteAt_stored (by rw [length_lowRegs]; omega), getD_lowRegs s hr]

/-- FX65 loads each register up to `V[x]` from its place and leaves the others (R165). -/
theorem reg_of_exec_ldRegs {s t : State} {x : Nibble} (h : exec (.ldRegs x) s = .next t) (r : Nibble) :
    t.reg r = if r.toNat ≤ x.toNat then s.byteAt (s.i.toNat + r.toNat) else s.reg r := by
  obtain ⟨-, rfl⟩ := (exec_ldRegs_next_iff s t x).mp h
  have hks : ∀ k ∈ List.range (x.toNat + 1), k < 16 := fun k hk => by
    have := x.isLt
    have := List.mem_range.mp hk
    omega
  simp only [State.retire_reg, State.reg_loadRegsFrom s _ _ hks, List.mem_range, Nat.lt_succ_iff, effAddr_zero]

/-- Settles O40: the two instructions share their range check, and neither writes `I`. -/
theorem blockStoreAndLoad : Obligations.BlockStoreAndLoad := by
  intro s x
  refine ⟨decode_encode (.stRegs x), decode_encode (.ldRegs x), fun hin => ⟨?_, ?_⟩, fun hout => ⟨?_, ?_⟩⟩
  · have hx := (exec_stRegs_next_iff s _ x).mpr ⟨inRange_of_le (by omega), rfl⟩
    exact ⟨_, hx, rfl, rfl, fun _ hr => byteAt_of_exec_stRegs hx hr⟩
  · have hx := (exec_ldRegs_next_iff s _ x).mpr ⟨inRange_of_le (by omega), rfl⟩
    exact ⟨_, hx, rfl, rfl, reg_of_exec_ldRegs hx⟩
  · exact (exec_fault_iff _ s _).mpr (by simp [Raises, hout])
  · exact (exec_fault_iff _ s _).mpr (by simp [Raises, hout])

theorem i_of_exec_stRegs {s t : State} {x : Nibble} (h : exec (.stRegs x) s = .next t) : t.i = s.i := by
  obtain ⟨-, rfl⟩ := (exec_stRegs_next_iff s t x).mp h
  rfl

/-- Settles O41: the load reads the bytes the store left, whatever registers stand between. -/
theorem blockLoadUndoesBlockStore : Obligations.BlockLoadUndoesBlockStore := by
  intro s t u x v hst hld r hr
  calc u.reg r = t.byteAt (t.i.toNat + r.toNat) := (reg_of_exec_ldRegs hld r).trans (if_pos hr)
    _ = t.byteAt (s.i.toNat + r.toNat) := by rw [i_of_exec_stRegs hst]
    _ = s.reg r := byteAt_of_exec_stRegs hst hr

/-! ### Stored bytes are fetched (R55, R61) -/

/-- Settles O42: the two bytes at the stored address are the first two registers, so they are the word there. -/
theorem storedBytesAreFetched : Obligations.StoredBytesAreFetched := by
  intro s t x i hx1 h hd
  have hi : s.i.toNat < 4096 := s.i.isLt
  have hpc : (BitVec.ofNat 16 s.i.toNat).toNat = s.i.toNat := by
    rw [BitVec.toNat_ofNat]
    omega
  obtain ⟨hin, -⟩ := (exec_stRegs_next_iff s t x).mp h
  have hlast := add_le_of_inRange hin (Nat.succ_pos _)
  rw [effAddr_zero] at hlast
  have h0 : t.byteAt s.i.toNat = s.reg 0 := byteAt_of_exec_stRegs (r := 0) h (Nat.zero_le _)
  have h1 : t.byteAt (s.i.toNat + 1) = s.reg 1 := byteAt_of_exec_stRegs (r := 1) h hx1
  have hword : wordAtPc { t with pc := BitVec.ofNat 16 s.i.toNat } =
      BitVec.ofNat 16 ((s.reg 0).toNat * 256 + (s.reg 1).toNat) := by
    rw [← h0, ← h1, wordAtPc, hpc]
    rfl
  exact step_of_decode (by rw [hpc]; omega) (hword ▸ hd)

end Sys2Proof.Machine
end

section
/-! PROOFS. Keys and timers (45_input_timers.md R190 to R193, R195, R196). -/

namespace Sys2Proof.Machine

open Sys2Proof.Safety

/-! ### The key skips (R190, R191) -/

theorem toNat_keyNumber (b : Byte) : (keyNumber b).toNat = b.toNat % 16 := by
  simp [keyNumber, BitVec.extractLsb'_toNat]

/-- Settles O46: the key number is the low nibble, and the two skips test the same key the other way round. -/
theorem keySkips : Obligations.KeySkips := by
  intro s x k hk
  have hkey : keyNumber (s.reg x) = k := BitVec.eq_of_toNat_eq ((toNat_keyNumber _).trans hk.symm)
  refine ⟨⟨decode_encode (.skp x), ?_⟩, ⟨decode_encode (.sknp x), ?_⟩⟩
  · exact skip_completes ((exec_skp_next_iff s _ x).mpr rfl) (by rw [hkey])
  · obtain ⟨t, hx, hregs, hpc⟩ := skip_completes (P := ¬ s.keyDown k = true) ((exec_sknp_next_iff s _ x).mpr rfl)
      (by rw [hkey, Bool.not_eq_true', Bool.not_eq_true])
    exact ⟨t, hx, hregs, by rw [hpc, ite_not]⟩

/-! ### The key wait (R192, R193) -/

/-- A pressed key with none below it is the one FX0A takes. -/
theorem State.leastKey_eq_some {s : State} {k : Nibble} (hk : s.keyDown k = true)
    (hleast : ∀ j : Nibble, j.toNat < k.toNat → s.keyDown j = false) : s.leastKey = some k.toNat := by
  have hlt := k.isLt
  refine List.find?_range_eq_some.mpr ⟨hk, List.mem_range.mpr hlt, fun j hj => ?_⟩
  have hj' : (BitVec.ofNat 4 j).toNat = j := by
    rw [BitVec.toNat_ofNat]
    omega
  have hup := hleast (BitVec.ofNat 4 j) (by omega)
  rw [State.keyDown, hj'] at hup
  simp [hup]

theorem exec_ldVxKey_of_no_key {s : State} (x : Nibble) (h : ∀ k, s.keyDown k = false) :
    exec (.ldVxKey x) s = .next s.awaitKey :=
  (exec_ldVxKey_next_iff s _ x).mpr (.inr ⟨s.leastKey_eq_none_iff.mpr h, rfl⟩)

/-- Settles O47: with a key down the number of the least one is written; with none the wait writes `MODE` alone. -/
theorem keyWait : Obligations.KeyWait := by
  refine fun s x => ⟨decode_encode (.ldVxKey x), fun k hk hleast => ?_, exec_ldVxKey_of_no_key x⟩
  have hx := (exec_ldVxKey_next_iff s _ x).mpr (.inl ⟨k.toNat, State.leastKey_eq_some hk hleast, rfl⟩)
  have hlt := k.isLt
  refine ⟨_, hx, ?_, regsKept_setReg_retire s x _ _, rfl, rfl, rfl⟩
  rw [State.retire_reg, State.reg_setReg, if_pos rfl, BitVec.toNat_ofNat]
  omega

/-- A word at `pc` whose number is the format `XS` sum of an instruction's word decodes to that instruction. -/
theorem decode_wordAtPc_XS {s : State} {bits : Nat} {x : Nibble} {i : Instr} (hi : encode i = wordXS bits x)
    (h : bits + 3840 < 65536) (hw : (wordAtPc s).toNat = bits + x.toNat * 256) : decode (wordAtPc s) = .ok i := by
  rw [wordAtPc_eq_wordXS h hw, ← hi]
  exact decode_encode i

/-- Settles O48: the waiting cycle writes `MODE` alone before its tick. -/
theorem waitingCycleTicks : Obligations.WaitingCycleTicks := by
  intro s x hpc hw hkeys
  have hd := decode_wordAtPc_XS (i := .ldVxKey x) rfl (by decide) hw
  have hstep := step_of_exec_next hpc hd (exec_ldVxKey_of_no_key x hkeys)
  exact ⟨_, hstep, rfl, rfl, fun _ _ => rfl, toNat_tickTimer s.dt, toNat_tickTimer s.st, cycle_of_step_tick hstep⟩

/-! ### Loading a timer (R195, R196) -/

/-- Settles O50: each load writes its timer and goes on. -/
theorem loadingATimer : Obligations.LoadingATimer := fun s x =>
  ⟨⟨decode_encode (.ldDtVx x), _, (exec_ldDtVx_next_iff s _ x).mpr rfl, rfl, rfl, fun _ _ => rfl, rfl⟩,
    ⟨decode_encode (.ldStVx x), _, (exec_ldStVx_next_iff s _ x).mpr rfl, rfl, rfl, fun _ _ => rfl, rfl⟩⟩

/-- Settles O51: the tick meets the timer as the instruction loaded it. -/
theorem loadedTimerTicksAtOnce : Obligations.LoadedTimerTicksAtOnce := by
  refine fun s x hpc => ⟨fun hw => ?_, fun hw => ?_⟩
  · have hd := decode_wordAtPc_XS (i := .ldDtVx x) rfl (by decide) hw
    exact ⟨_, step_of_exec_next hpc hd ((exec_ldDtVx_next_iff s _ x).mpr rfl), toNat_tickTimer (s.reg x)⟩
  · have hd := decode_wordAtPc_XS (i := .ldStVx x) rfl (by decide) hw
    have hstep := step_of_exec_next hpc hd ((exec_ldStVx_next_iff s _ x).mpr rfl)
    exact ⟨_, hstep, toNat_tickTimer (s.reg x), cycle_of_step_tick hstep⟩

end Sys2Proof.Machine
end

section
/-! PROOFS. Drawing a sprite (44_display.md R181, R182, R184): its rows lie on different screen rows, so the pixels
under it are flipped once each, and a collision is a pixel under it that was lit before the draw. -/

namespace Sys2Proof.Machine

open Sys2Proof.Safety

/-! ### The pixels under a sprite (R181, R182) -/

/-- Pixel (`y`, `x`) lies under a 1 bit of the sprite rows `bs` drawn at column `vx` from row `vy` down. -/
def UnderRows (bs : List Byte) (vx vy : Nat) (y : Fin 32) (x : Fin 64) : Prop :=
  ∃ row col, row < bs.length ∧ col < 8 ∧ (bs.getD row 0).getLsbD (7 - col) = true ∧
    y.val = (vy + row) % 32 ∧ x.val = (vx + col) % 64

theorem underRows_nil (vx vy : Nat) (y : Fin 32) (x : Fin 64) : ¬ UnderRows [] vx vy y x := by
  simp [UnderRows]

theorem underRows_singleton (b : Byte) (vx vy : Nat) (y : Fin 32) (x : Fin 64) :
    UnderRows [b] vx vy y x ↔
      y = Fin.ofNat 32 vy ∧ ∃ c ∈ List.range 8, b.getLsbD (7 - c) = true ∧ x = Fin.ofNat 64 (vx + c) := by
  simp only [UnderRows, Fin.ext_iff, Fin.val_ofNat, List.mem_range]
  constructor
  · rintro ⟨row, col, hrow, hcol, hbit, hy, hx⟩
    obtain rfl : row = 0 := Nat.lt_one_iff.mp hrow
    exact ⟨hy, col, hcol, hbit, hx⟩
  · rintro ⟨hy, col, hcol, hbit, hx⟩
    exact ⟨0, col, Nat.one_pos, hcol, hbit, hy, hx⟩

theorem underRows_cons (b : Byte) (bs : List Byte) (vx vy : Nat) (y : Fin 32) (x : Fin 64) :
    UnderRows (b :: bs) vx vy y x ↔ UnderRows [b] vx vy y x ∨ UnderRows bs vx (vy + 1) y x := by
  constructor
  · rintro ⟨row, col, hrow, hcol, hbit, hy, hx⟩
    cases row with
    | zero => exact .inl ⟨0, col, Nat.one_pos, hcol, hbit, hy, hx⟩
    | succ k =>
      exact .inr ⟨k, col, Nat.lt_of_succ_lt_succ hrow, hcol, hbit, by rw [hy, Nat.add_right_comm, Nat.add_assoc], hx⟩
  · rintro (⟨row, col, hrow, hcol, hbit, hy, hx⟩ | ⟨row, col, hrow, hcol, hbit, hy, hx⟩)
    · obtain rfl : row = 0 := Nat.lt_one_iff.mp hrow
      exact ⟨0, col, Nat.succ_pos _, hcol, hbit, hy, hx⟩
    · exact ⟨row + 1, col, Nat.succ_lt_succ hrow, hcol, hbit, by rw [hy, Nat.add_right_comm, Nat.add_assoc], hx⟩

/-- At most 32 rows fall on different screen rows, so no pixel lies under two of them. -/
theorem not_underRows_of_first {b : Byte} {bs : List Byte} {vx vy : Nat} {y : Fin 32} {x : Fin 64}
    (hlen : (b :: bs).length ≤ 32) (h : UnderRows [b] vx vy y x) : ¬ UnderRows bs vx (vy + 1) y x := by
  rintro ⟨row, -, hrow, -, -, hy, -⟩
  obtain ⟨first, -, hfirst, -, -, hy', -⟩ := h
  simp only [List.length_cons, List.length_nil] at hlen hfirst
  omega

/-! ### One row, then all of them -/

/-- One row flips the pixels under it. -/
theorem lit_drawRow_iff (b : Byte) (vx vy : Nat) (d : Drawing) (y : Fin 32) (x : Fin 64) :
    lit (drawRow b vx (Fin.ofNat 32 vy) d).fb y x = true ↔ (lit d.fb y x = true ↔ ¬ UnderRows [b] vx vy y x) := by
  have hrow := underRows_singleton b vx vy y x
  rw [lit_drawRow]
  by_cases h : UnderRows [b] vx vy y x
  · rw [decide_eq_true (hrow.mp h)]
    simp [h]
  · rw [decide_eq_false (mt hrow.mpr h)]
    simp [h]

/-- One row collides with a lit pixel under it. -/
theorem hit_drawRow_iff (b : Byte) (vx vy : Nat) (d : Drawing) :
    (drawRow b vx (Fin.ofNat 32 vy) d).hit = true ↔
      d.hit = true ∨ ∃ y x, UnderRows [b] vx vy y x ∧ lit d.fb y x = true := by
  rw [hit_drawRow, Bool.or_eq_true, decide_eq_true_iff]
  simp only [underRows_singleton]
  constructor
  · rintro (h | ⟨c, hc, hbit, hlit⟩)
    · exact .inl h
    · exact .inr ⟨_, _, ⟨rfl, c, hc, hbit, rfl⟩, hlit⟩
  · rintro (h | ⟨_, _, ⟨rfl, c, hc, hbit, rfl⟩, hlit⟩)
    · exact .inl h
    · exact .inr ⟨c, hc, hbit, hlit⟩

/-- The rows flip the pixels under them, each once. -/
theorem lit_drawRows_iff (bs : List Byte) (vx vy : Nat) (d : Drawing) (y : Fin 32) (x : Fin 64)
    (hlen : bs.length ≤ 32) :
    lit (drawRows bs vx vy d).fb y x = true ↔ (lit d.fb y x = true ↔ ¬ UnderRows bs vx vy y x) := by
  induction bs generalizing vy d with
  | nil => simp [drawRows, underRows_nil]
  | cons b bs ih =>
    have hapart := not_underRows_of_first (vx := vx) (vy := vy) (y := y) (x := x) hlen
    rw [drawRows, ih _ _ (Nat.le_of_succ_le hlen), lit_drawRow_iff, underRows_cons b bs]
    tauto

/-- The rows collide with a pixel under them that was lit before any was drawn. -/
theorem hit_drawRows_iff (bs : List Byte) (vx vy : Nat) (d : Drawing) (hlen : bs.length ≤ 32) :
    (drawRows bs vx vy d).hit = true ↔ d.hit = true ∨ ∃ y x, UnderRows bs vx vy y x ∧ lit d.fb y x = true := by
  induction bs generalizing vy d with
  | nil => simp [drawRows, underRows_nil]
  | cons b bs ih =>
    have hsame : ∀ y x, UnderRows bs vx (vy + 1) y x →
        (lit (drawRow b vx (Fin.ofNat 32 vy) d).fb y x = true ↔ lit d.fb y x = true) := fun y x h => by
      have hfirst : ¬ UnderRows [b] vx vy y x := fun h' => not_underRows_of_first hlen h' h
      rw [lit_drawRow_iff, iff_true_right hfirst]
    have hrest : (∃ y x, UnderRows bs vx (vy + 1) y x ∧ lit (drawRow b vx (Fin.ofNat 32 vy) d).fb y x = true) ↔
        ∃ y x, UnderRows bs vx (vy + 1) y x ∧ lit d.fb y x = true :=
      exists_congr fun y => exists_congr fun x => and_congr_right (hsame y x)
    rw [drawRows, ih _ _ (Nat.le_of_succ_le hlen), hrest, hit_drawRow_iff, or_assoc]
    simp only [underRows_cons b bs, or_and_right, exists_or]

/-! ### DXYN (R181) -/

theorem length_sprite (s : State) (n : Nat) : (s.sprite n).length = n := by
  simp [State.sprite]

theorem getD_sprite (s : State) {n row : Nat} (h : row < n) : (s.sprite n).getD row 0 = s.byteAt (s.i.toNat + row) := by
  simp [State.sprite, State.effAddr, h]

/-- The pixels under the rows of the sprite at `I` are those the statements call covered. -/
theorem underRows_sprite_iff (s : State) (vx vy n : Nat) (y : Fin 32) (x : Fin 64) :
    UnderRows (s.sprite n) vx vy y x ↔ Covered s vx vy n y x := by
  simp only [UnderRows, Covered, length_sprite]
  refine exists_congr fun row => exists_congr fun col => and_congr_right fun hrow => ?_
  rw [getD_sprite s hrow]

variable {s t : State} {x y n : Nibble}

theorem length_sprite_le (s : State) (n : Nibble) : (s.sprite n.toNat).length ≤ 32 := by
  have := n.isLt
  rw [length_sprite]
  omega

theorem lit_of_exec_drw (h : exec (.drw x y n) s = .next t) (py : Fin 32) (px : Fin 64) :
    lit t.fb py px = true ↔
      (lit s.fb py px = true ↔ ¬ Covered s (s.reg x).toNat (s.reg y).toNat n.toNat py px) := by
  obtain ⟨-, rfl⟩ := (exec_drw_next_iff s t x y n).mp h
  rw [State.retire_fb, State.commitDrawing_fb, State.drawn, lit_drawRows_iff _ _ _ _ _ _ (length_sprite_le s n),
    underRows_sprite_iff]

/-- The flag tells whether a covered pixel was lit. -/
theorem flag_of_exec_drw (h : exec (.drw x y n) s = .next t) :
    ((∃ py px, Covered s (s.reg x).toNat (s.reg y).toNat n.toNat py px ∧ lit s.fb py px = true) → t.reg 15 = 1) ∧
    ((¬ ∃ py px, Covered s (s.reg x).toNat (s.reg y).toNat n.toNat py px ∧ lit s.fb py px = true) →
      t.reg 15 = 0) := by
  obtain ⟨-, rfl⟩ := (exec_drw_next_iff s t x y n).mp h
  have hflag : ((s.commitDrawing (s.drawn x y n)).retire (s.pc + 2)).reg 15 = flagByte (s.drawn x y n).hit := by
    rw [State.retire_reg, State.reg_commitDrawing]
    exact if_pos rfl
  have hhit := hit_drawRows_iff (s.sprite n.toNat) (s.reg x).toNat (s.reg y).toNat { fb := s.fb, hit := false }
    (length_sprite_le s n)
  simp only [Bool.false_eq_true, false_or, underRows_sprite_iff] at hhit
  rw [← hhit, hflag, ← State.drawn]
  constructor <;> intro hd <;> simp [hd, flagByte]

theorem regsKept_of_exec_drw (h : exec (.drw x y n) s = .next t) : RegsKept [15] s t := by
  obtain ⟨-, rfl⟩ := (exec_drw_next_iff s t x y n).mp h
  intro r hr
  exact (State.reg_commitDrawing s _ r).trans (if_neg (List.ne_of_not_mem_cons hr))

/-- The statement's sum for format `XYN` is the encoder's, which adds the row count first (R82). -/
theorem encode_drw (x y n : Nibble) :
    encode (.drw x y n) = BitVec.ofNat 16 (0xD000 + x.toNat * 256 + y.toNat * 16 + n.toNat) :=
  congrArg (BitVec.ofNat 16) (by omega)

/-- Settles O44: the drawing's rows are the covered pixels, and its `hit` the flag. -/
theorem drawFlipsThePixelsUnderTheSprite : Obligations.DrawFlipsThePixelsUnderTheSprite := by
  refine fun s x y n => ⟨encode_drw x y n ▸ decode_encode (.drw x y n), fun hin => ?_, fun hn hout => ?_⟩
  · have hrange : inRange (s.effAddr 0) n.toNat = true := by
      rw [inRange_iff, effAddr_zero]
      omega
    have hx := (exec_drw_next_iff s _ x y n).mpr ⟨hrange, rfl⟩
    obtain ⟨hlit, hunlit⟩ := flag_of_exec_drw hx
    exact ⟨_, hx, rfl, regsKept_of_exec_drw hx, lit_of_exec_drw hx, hlit, hunlit⟩
  · exact (exec_fault_iff _ s _).mpr (by simp [Raises, hn, hout])

/-! ### The same sprite twice (R184) -/

/-- Which pixels are covered depends on `I` and the sprite's bytes alone. -/
theorem covered_congr {s t : State} (hi : t.i = s.i) (hmem : MemKept s t) (vx vy n : Nat) (py : Fin 32) (px : Fin 64) :
    Covered t vx vy n py px ↔ Covered s vx vy n py px := by
  simp only [Covered, hi, hmem _]

theorem i_mem_of_exec_drw (h : exec (.drw x y n) s = .next t) : t.i = s.i ∧ MemKept s t := by
  obtain ⟨-, rfl⟩ := (exec_drw_next_iff s t x y n).mp h
  exact ⟨rfl, fun _ => rfl⟩

/-- Settles O45: the second draw covers the same pixels, so each is flipped back, and one that the first draw lit is
a collision of the second. -/
theorem drawingTwiceErases : Obligations.DrawingTwiceErases := by
  intro s t t' u x y n hfirst hfb hi hmem hvx hvy hsecond
  obtain ⟨hi1, hmem1⟩ := i_mem_of_exec_drw hfirst
  have hcov : ∀ py px, Covered t' (t'.reg x).toNat (t'.reg y).toNat n.toNat py px ↔
      Covered s (s.reg x).toNat (s.reg y).toNat n.toNat py px := fun py px => by
    rw [hvx, hvy]
    exact covered_congr (hi.trans hi1) (fun a => (hmem a).trans (hmem1 a)) _ _ _ py px
  have hlit1 := lit_of_exec_drw hfirst
  have hlit2 := lit_of_exec_drw hsecond
  simp only [hcov, hfb] at hlit2
  refine ⟨fun py px => Bool.eq_iff_iff.mpr ?_, fun ⟨py, px, hc⟩ hclear => ?_⟩
  · rw [hlit2, hlit1]
    tauto
  · refine (flag_of_exec_drw hsecond).1 ⟨py, px, (hcov py px).mpr hc, ?_⟩
    rw [hfb, hlit1, hclear py px hc]
    simp [hc]

end Sys2Proof.Machine
end

section
/-! PROOFS. The frames: what each instruction leaves unchanged (40_cycle.md R95, decision D3). -/

namespace Sys2Proof.Machine

open Sys2Proof.Safety

variable {s t : State} {x y n : Nibble} {nn : Byte} {nnn : Addr}

/-- Everything the frames speak of but the general registers is unchanged. -/
def RestKept (s t : State) : Prop :=
  t.i = s.i ∧ StackKept s t ∧ TimersKept s t ∧ ScreenKept s t ∧ MemKept s t ∧ LatchKept s t

/-- A state that differs in registers, `pc` and `MODE` alone keeps the rest. -/
theorem restKept_of_eq (h : { t with v := s.v, pc := s.pc, mode := s.mode } = s) : RestKept s t := by
  rw [← h]
  exact ⟨rfl, ⟨rfl, fun _ => rfl⟩, ⟨rfl, rfl⟩, fun _ _ => rfl, fun _ => rfl, rfl, rfl, rfl⟩

/-! ### One register (R130 to R136, R143, R192, R194) -/

/-- An instruction that writes one register keeps the rest, and the draw count too where it is not CXNN. -/
theorem registerWriteFrame_of_kept {i : Instr} (hi : i ≠ .rnd x nn) (hregs : RegsKept [x] s t) (hrest : RestKept s t) :
    RegsKept [x] s t ∧ t.i = s.i ∧ StackKept s t ∧ TimersKept s t ∧ ScreenKept s t ∧ MemKept s t ∧
      t.key = s.key ∧ t.edge = s.edge ∧ t.draws = if i = .rnd x nn then s.draws + 1 else s.draws := by
  obtain ⟨hI, hstack, htimers, hscreen, hmem, hkey, hedge, hdraws⟩ := hrest
  exact ⟨hregs, hI, hstack, htimers, hscreen, hmem, hkey, hedge, hdraws.trans (if_neg hi).symm⟩

theorem registerWriteFrame_of_setReg {i : Instr} {b : Byte} {p : Word} (hi : i ≠ .rnd x nn)
    (ht : t = (s.setReg x b).retire p) :
    RegsKept [x] s t ∧ t.i = s.i ∧ StackKept s t ∧ TimersKept s t ∧ ScreenKept s t ∧ MemKept s t ∧
      t.key = s.key ∧ t.edge = s.edge ∧ t.draws = if i = .rnd x nn then s.draws + 1 else s.draws :=
  registerWriteFrame_of_kept hi (ht ▸ regsKept_setReg_retire s x b p) (restKept_of_eq (ht ▸ rfl))

/-- Settles O52: eight of the nine write one register, FX0A may wait instead, and CXNN counts its draw before it
writes. -/
theorem registerWriteFrame : Obligations.RegisterWriteFrame := by
  intro i s t x y nn hi h
  simp only [List.mem_cons, List.not_mem_nil, or_false] at hi
  obtain rfl | rfl | rfl | rfl | rfl | rfl | rfl | rfl | rfl := hi
  · exact registerWriteFrame_of_setReg nofun ((exec_ldImm_next_iff s t x nn).mp h)
  · exact registerWriteFrame_of_setReg nofun ((exec_addImm_next_iff s t x nn).mp h)
  · exact registerWriteFrame_of_setReg nofun ((exec_ldReg_next_iff s t x y).mp h)
  · exact registerWriteFrame_of_setReg nofun ((exec_orReg_next_iff s t x y).mp h)
  · exact registerWriteFrame_of_setReg nofun ((exec_andReg_next_iff s t x y).mp h)
  · exact registerWriteFrame_of_setReg nofun ((exec_xorReg_next_iff s t x y).mp h)
  · obtain rfl := (exec_rnd_next_iff s t x nn).mp h
    exact ⟨regsKept_setReg_retire s.consumeDraw x _ _, rfl, ⟨rfl, fun _ => rfl⟩, ⟨rfl, rfl⟩, fun _ _ => rfl,
      fun _ => rfl, rfl, rfl, (if_pos rfl).symm⟩
  · exact registerWriteFrame_of_setReg nofun ((exec_ldVxDt_next_iff s t x).mp h)
  · obtain ⟨k, -, ht⟩ | ⟨-, rfl⟩ := (exec_ldVxKey_next_iff s t x).mp h
    · exact registerWriteFrame_of_setReg nofun ht
    · exact registerWriteFrame_of_kept nofun (fun _ _ => rfl) (restKept_of_eq rfl)

/-! ### A result and the flag (R137 to R141) -/

theorem flagWriteFrame_of_write2 {f r : Byte} {p : Word} (ht : t = (s.write2 x f r).retire p) :
    RegsKept [x, 15] s t ∧ RestKept s t :=
  ht ▸ ⟨regsKept_write2_retire s x f r p, restKept_of_eq rfl⟩

/-- Settles O53: the five differ in the two bytes they write. -/
theorem flagWriteFrame : Obligations.FlagWriteFrame := by
  intro i s t x y hi h
  simp only [List.mem_cons, List.not_mem_nil, or_false] at hi
  obtain rfl | rfl | rfl | rfl | rfl := hi
  · exact flagWriteFrame_of_write2 ((exec_addReg_next_iff s t x y).mp h)
  · exact flagWriteFrame_of_write2 ((exec_sub_next_iff s t x y).mp h)
  · exact flagWriteFrame_of_write2 ((exec_shr_next_iff s t x y).mp h)
  · exact flagWriteFrame_of_write2 ((exec_subn_next_iff s t x y).mp h)
  · exact flagWriteFrame_of_write2 ((exec_shl_next_iff s t x y).mp h)

/-! ### Jumps, skips, call and return (R110 to R117, R190, R191) -/

theorem jumpFrame_of_retire {p : Word} (ht : t = s.retire p) : RegsKept [] s t ∧ RestKept s t :=
  ht ▸ ⟨fun _ _ => rfl, restKept_of_eq rfl⟩

/-- Settles O54: each of them retires the state as it stands. -/
theorem jumpAndSkipFrame : Obligations.JumpAndSkipFrame := by
  intro i s t x y nn nnn hi h
  simp only [List.mem_cons, List.not_mem_nil, or_false] at hi
  obtain rfl | rfl | rfl | rfl | rfl | rfl | rfl | rfl := hi
  · exact jumpFrame_of_retire ((exec_jp_next_iff s t nnn).mp h)
  · exact jumpFrame_of_retire ((exec_jpV0_next_iff s t nnn).mp h)
  · exact jumpFrame_of_retire ((exec_seImm_next_iff s t x nn).mp h)
  · exact jumpFrame_of_retire ((exec_sneImm_next_iff s t x nn).mp h)
  · exact jumpFrame_of_retire ((exec_seReg_next_iff s t x y).mp h)
  · exact jumpFrame_of_retire ((exec_sneReg_next_iff s t x y).mp h)
  · exact jumpFrame_of_retire ((exec_skp_next_iff s t x).mp h)
  · exact jumpFrame_of_retire ((exec_sknp_next_iff s t x).mp h)

/-- Settles O55: a push writes the entry at the depth, a drop none. -/
theorem callAndReturnFrame : Obligations.CallAndReturnFrame := by
  intro i s t nnn hi h
  simp only [List.mem_cons, List.not_mem_nil, or_false] at hi
  obtain rfl | rfl := hi
  · obtain ⟨room, rfl⟩ := (exec_call_next_iff s t nnn).mp h
    refine ⟨fun _ _ => rfl, rfl, ⟨rfl, rfl⟩, fun _ _ => rfl, fun _ => rfl, ⟨rfl, rfl, rfl⟩, fun k hk => ?_⟩
    have hne : k.val ≠ s.sp.val := hk.resolve_left nofun
    exact (State.get_push_stack s.pc room k).trans (if_neg hne)
  · obtain ⟨live, rfl⟩ := (exec_ret_next_iff s t).mp h
    exact ⟨fun _ _ => rfl, rfl, ⟨rfl, rfl⟩, fun _ _ => rfl, fun _ => rfl, ⟨rfl, rfl, rfl⟩, fun _ _ => rfl⟩

/-! ### The address register and memory (R160 to R165) -/

theorem addressFrame_of_setI {a : Addr} {p : Word} (ht : t = (s.setI a).retire p) :
    RegsKept [] s t ∧ StackKept s t ∧ TimersKept s t ∧ ScreenKept s t ∧ MemKept s t ∧ LatchKept s t :=
  ht ▸ ⟨fun _ _ => rfl, ⟨rfl, fun _ => rfl⟩, ⟨rfl, rfl⟩, fun _ _ => rfl, fun _ => rfl, rfl, rfl, rfl⟩

/-- Settles O56: the three differ in the address they set. -/
theorem addressRegisterFrame : Obligations.AddressRegisterFrame := by
  intro i s t x nnn hi h
  simp only [List.mem_cons, List.not_mem_nil, or_false] at hi
  obtain rfl | rfl | rfl := hi
  · exact addressFrame_of_setI ((exec_ldI_next_iff s t nnn).mp h)
  · exact addressFrame_of_setI ((exec_addI_next_iff s t x).mp h)
  · exact addressFrame_of_setI ((exec_ldFont_next_iff s t x).mp h)

/-- A store leaves every byte outside the stored ones (R59). -/
theorem memKeptOutside_storeBytes_retire (s : State) (a : Nat) (ws : List Byte) (p : Word) :
    MemKeptOutside a ws.length s ((s.storeBytes a ws).retire p) := by
  intro b hb
  rw [State.retire_byteAt, State.byteAt_storeBytes, if_neg (by omega)]

theorem storeFrame_of_storeBytes {ws : List Byte} {k : Nat} {p : Word} (hk : ws.length = k)
    (ht : t = (s.storeBytes (s.effAddr 0) ws).retire p) :
    RegsKept [] s t ∧ t.i = s.i ∧ StackKept s t ∧ TimersKept s t ∧ ScreenKept s t ∧ LatchKept s t ∧
      MemKeptOutside (s.effAddr 0) k s t := by
  subst ht hk
  exact ⟨fun _ _ => rfl, rfl, ⟨rfl, fun _ => rfl⟩, ⟨rfl, rfl⟩, fun _ _ => rfl, ⟨rfl, rfl, rfl⟩,
    memKeptOutside_storeBytes_retire s _ ws p⟩

/-- Settles O57: the two store as many bytes as the statement says, from the address it says. -/
theorem storeFrame : Obligations.StoreFrame := by
  intro i s t x hi h
  simp only [List.mem_cons, List.not_mem_nil, or_false] at hi
  obtain rfl | rfl := hi
  · obtain ⟨-, ht⟩ := (exec_ldBcd_next_iff s t x).mp h
    exact storeFrame_of_storeBytes (by simp [length_bcdDigits]) ht
  · obtain ⟨-, ht⟩ := (exec_stRegs_next_iff s t x).mp h
    exact storeFrame_of_storeBytes (by simp [length_lowRegs]) ht

/-- Settles O58: the registers above `V[x]` are not among those loaded. -/
theorem blockLoadFrame : Obligations.BlockLoadFrame := by
  intro s t x h
  refine ⟨fun r hr => (reg_of_exec_ldRegs h r).trans (if_neg (Nat.not_le.mpr hr)), ?_⟩
  obtain ⟨-, rfl⟩ := (exec_ldRegs_next_iff s t x).mp h
  exact restKept_of_eq rfl

/-! ### The screen and the timers (R180, R181, R195, R196) -/

/-- Settles O59: the clear writes the screen, the draw the screen and the flag. -/
theorem displayFrame : Obligations.DisplayFrame := by
  intro i s t x y n hi h
  simp only [List.mem_cons, List.not_mem_nil, or_false] at hi
  obtain rfl | rfl := hi
  · obtain rfl := (exec_cls_next_iff s t).mp h
    exact ⟨fun _ _ => rfl, rfl, ⟨rfl, fun _ => rfl⟩, ⟨rfl, rfl⟩, fun _ => rfl, rfl, rfl, rfl⟩
  · have hregs : RegsKept [15] s t := regsKept_of_exec_drw h
    obtain ⟨-, rfl⟩ := (exec_drw_next_iff s t x y n).mp h
    exact ⟨hregs, rfl, ⟨rfl, fun _ => rfl⟩, ⟨rfl, rfl⟩, fun _ => rfl, rfl, rfl, rfl⟩

/-- Settles O60: each load writes one timer. -/
theorem timerLoadFrame : Obligations.TimerLoadFrame := by
  intro i s t x hi h
  simp only [List.mem_cons, List.not_mem_nil, or_false] at hi
  obtain rfl | rfl := hi
  · obtain rfl := (exec_ldDtVx_next_iff s t x).mp h
    exact ⟨fun _ _ => rfl, rfl, ⟨rfl, fun _ => rfl⟩, fun _ _ => rfl, fun _ => rfl, ⟨rfl, rfl, rfl⟩, by simp⟩
  · obtain rfl := (exec_ldStVx_next_iff s t x).mp h
    exact ⟨fun _ _ => rfl, rfl, ⟨rfl, fun _ => rfl⟩, fun _ _ => rfl, fun _ => rfl, ⟨rfl, rfl, rfl⟩, by simp⟩

end Sys2Proof.Machine
end
